-- ==== Sys2Proof/Word.lean ====
section
/-! DEFINITION. The word types of the hardware: the byte of the frame buffer, the 16-bit command word
and 16-bit header words, the 32-bit response and length words (`00_scope.md` R10, R11: every quantity
is unsigned). -/

namespace Sys2Proof

/-- One byte of the frame buffer (R40). -/
abbrev Byte := BitVec 8

/-- A 16-bit big-endian word of the header, and the width `CMD_W` of the command word (R10, R132). -/
abbrev Half := BitVec 16

/-- A 32-bit word: `VAL_W`, `AUX_W`, `FLEN_W` and `ACC_W` (R10). -/
abbrev Word := BitVec 32

end Sys2Proof
end

