-- ==== Sys2Proof/Config.lean ====
section
/-! DEFINITION. The parameters of the hardware: the constants of `00_scope.md` R9, the ones R10 fixes,
and the one parameter R10 leaves open, `FB_SIZE`. -/

namespace Sys2Proof.Config

/-- `ENVELOPE_LEN` (R9); it is also `VIEW_BASE` (R10, R44). -/
@[simp] abbrev envelopeLen : Nat := 4

/-- `MIN_HEADER_LEN` (R9). -/
@[simp] abbrev minHeaderLen : Nat := 20

/-- `IHL_MIN` (R9). -/
@[simp] abbrev ihlMin : Nat := 5

/-- `IHL_UNIT` (R9). -/
@[simp] abbrev ihlUnit : Nat := 4

/-- `MAX_OPTIONS_LEN` (R9): the largest legal immediate of the `.N` forms (R63). -/
@[simp] abbrev maxOptionsLen : Nat := 40

/-- `ETHERTYPE_IPV4` (R9). -/
@[simp] abbrev etherTypeIPv4 : Half := 0x0800

/-- `IP_VERSION` (R9). -/
@[simp] abbrev ipVersion : BitVec 4 := 4

/-- "at most two folds are ever needed" (R135); `Obligations.TwoFoldsAlwaysSuffice` says that the bound
cuts no fold short, whatever the accumulator holds. -/
@[simp] abbrev maxFolds : Nat := 2

/-- The index of the word that holds header_checksum, view octets 10 and 11 (R133). -/
@[simp] abbrev checksumWordIndex : Nat := 5

/-- How far `FB_SIZE` exceeds 64. The spec leaves it OPEN (R10, R21, D16): a constant with no body, of
which nothing can be proved (log entry 5). -/
opaque fbSizeAbove64 : Nat

/-- `FB_SIZE`, the capacity of the frame buffer: open, and at least 64 (R10, R21). -/
def fbSize : Nat := fbSizeAbove64 + 64

end Sys2Proof.Config
end

