-- ==== Sys2Proof/Syntax.lean ====
section
/-! DEFINITION. The 23 operations of the hardware (`30_encoding.md` R64), one constructor per row of
`spec/opcode_table.json`, and their mnemonics and listing form (R68). -/

namespace Sys2Proof

/-- An operation (this hardware's instruction, R2). Format N operations have no operand (R61); the three
format I operations carry `IMM8 = CMD[7:0]`, an unsigned byte (R62, R63). -/
inductive Instr where
  /-- `ENV.CLASS` (R81) -/
  | envClass
  /-- `HV.VERSION` (R93) -/
  | hvVersion
  /-- `HV.IHL` (R94) -/
  | hvIhl
  /-- `HV.DSCP` (R95) -/
  | hvDscp
  /-- `HV.ECN` (R96) -/
  | hvEcn
  /-- `HV.TOTLEN` (R97) -/
  | hvTotlen
  /-- `HV.IDENT` (R98) -/
  | hvIdent
  /-- `HV.DF` (R99) -/
  | hvDf
  /-- `HV.MF` (R100) -/
  | hvMf
  /-- `HV.FRAGOFF` (R101) -/
  | hvFragoff
  /-- `HV.TTL` (R102) -/
  | hvTtl
  /-- `HV.PROTONUM` (R103) -/
  | hvProtonum
  /-- `HV.CSUMFLD` (R104) -/
  | hvCsumfld
  /-- `HV.SRC` (R105) -/
  | hvSrc
  /-- `HV.DST` (R106) -/
  | hvDst
  /-- `HV.OPTIONS` (R107) -/
  | hvOptions
  /-- `CS.COMPUTE` (R137) -/
  | csCompute
  /-- `CS.VERIFY` (R138) -/
  | csVerify
  /-- `CS.COMPUTE.N n`, `n` the options length in bytes (R140) -/
  | csComputeN (n : Byte)
  /-- `CS.VERIFY.N n`, `n` the options length in bytes (R141) -/
  | csVerifyN (n : Byte)
  /-- `PC.MAP imm`, `imm` the protocol number (R152) -/
  | pcMap (imm : Byte)
  /-- `PC.HDR` (R153) -/
  | pcHdr
  /-- `DEC.SUMMARY` (R161) -/
  | decSummary
  deriving DecidableEq, Repr

/-- The mnemonic column of R64. -/
def Instr.mnemonic : Instr → String
  | .envClass => "ENV.CLASS"
  | .hvVersion => "HV.VERSION"
  | .hvIhl => "HV.IHL"
  | .hvDscp => "HV.DSCP"
  | .hvEcn => "HV.ECN"
  | .hvTotlen => "HV.TOTLEN"
  | .hvIdent => "HV.IDENT"
  | .hvDf => "HV.DF"
  | .hvMf => "HV.MF"
  | .hvFragoff => "HV.FRAGOFF"
  | .hvTtl => "HV.TTL"
  | .hvProtonum => "HV.PROTONUM"
  | .hvCsumfld => "HV.CSUMFLD"
  | .hvSrc => "HV.SRC"
  | .hvDst => "HV.DST"
  | .hvOptions => "HV.OPTIONS"
  | .csCompute => "CS.COMPUTE"
  | .csVerify => "CS.VERIFY"
  | .csComputeN _ => "CS.COMPUTE.N"
  | .csVerifyN _ => "CS.VERIFY.N"
  | .pcMap _ => "PC.MAP"
  | .pcHdr => "PC.HDR"
  | .decSummary => "DEC.SUMMARY"

/-- The immediate of a format I operation; none for format N (R61, R62). -/
def Instr.imm : Instr → Option Byte
  | .csComputeN n => some n
  | .csVerifyN n => some n
  | .pcMap imm => some imm
  | .envClass | .hvVersion | .hvIhl | .hvDscp | .hvEcn | .hvTotlen | .hvIdent | .hvDf | .hvMf
  | .hvFragoff | .hvTtl | .hvProtonum | .hvCsumfld | .hvSrc | .hvDst | .hvOptions | .csCompute
  | .csVerify | .pcHdr | .decSummary => none

/-- One listing line of R68: the mnemonic, then for format I a space and the immediate in decimal. -/
def Instr.listing (i : Instr) : String :=
  match i.imm with
  | none => i.mnemonic
  | some n => i.mnemonic ++ " " ++ toString n.toNat

end Sys2Proof
end

