-- ==== Sys2Proof/WellFormed.lean ====
section
/-! DEFINITION. The check an operation passes to have an encoding: the immediate of the explicit-length
checksum forms is 0 to 40 (`30_encoding.md` R63); `PC.MAP` takes every byte. -/

namespace Sys2Proof

/-- The legal range of the `.N` immediates (R63, R66). -/
def optionsLenLegal (n : Byte) : Bool := decide (n.toNat ≤ Config.maxOptionsLen)

/-- The operation has a command word (R63, R65). -/
def Instr.wf : Instr → Bool
  | .csComputeN n => optionsLenLegal n
  | .csVerifyN n => optionsLenLegal n
  | .pcMap _ => true
  | .envClass | .hvVersion | .hvIhl | .hvDscp | .hvEcn | .hvTotlen | .hvIdent | .hvDf | .hvMf
  | .hvFragoff | .hvTtl | .hvProtonum | .hvCsumfld | .hvSrc | .hvDst | .hvOptions | .csCompute
  | .csVerify | .pcHdr | .decSummary => true

end Sys2Proof
end

