-- ==== Sys2Proof/Decode.lean ====
section
/-! DEFINITION. The command decoder, total on all 65536 words and rejecting by name (`30_encoding.md`
R60 to R66), the encoder written from the same map, and the host's `decodeTableWord`. -/

namespace Sys2Proof

/-- Why a command word selects no operation (the three cases of R66). Every one of them is answered with
the status `IllegalCommand`. -/
inductive DecodeError where
  /-- an `OP` that R64 does not assign -/
  | unassignedOpcode (op : Byte)
  /-- a format N `OP` with `ARG` not zero -/
  | argNotZero (op arg : Byte)
  /-- `CS.COMPUTE.N` or `CS.VERIFY.N` with `ARG` above 40 -/
  | optionsLenTooLarge (op arg : Byte)
  deriving DecidableEq, Repr

/-- `OP = CMD[15:8]` (R24, R60). -/
def opField (w : Half) : Byte := w.extractLsb' 8 8

/-- `ARG = CMD[7:0]` (R24, R60). -/
def argField (w : Half) : Byte := w.extractLsb' 0 8

/-- The format N rows of R64: operation code and operation. -/
def formatN : List (Byte × Instr) :=
  [(0x01, .envClass), (0x10, .hvVersion), (0x11, .hvIhl), (0x12, .hvDscp), (0x13, .hvEcn),
   (0x14, .hvTotlen), (0x15, .hvIdent), (0x16, .hvDf), (0x17, .hvMf), (0x18, .hvFragoff)] ++
  [(0x19, .hvTtl), (0x1A, .hvProtonum), (0x1B, .hvCsumfld), (0x1C, .hvSrc), (0x1D, .hvDst),
   (0x1E, .hvOptions), (0x20, .csCompute), (0x21, .csVerify), (0x31, .pcHdr), (0x40, .decSummary)]

/-- The decoder of R65. It reads no frame byte. -/
def decode (w : Half) : Except DecodeError Instr :=
  let op := opField w
  let arg := argField w
  if op = 0x22 then
    if optionsLenLegal arg then .ok (.csComputeN arg) else .error (.optionsLenTooLarge op arg)
  else if op = 0x23 then
    if optionsLenLegal arg then .ok (.csVerifyN arg) else .error (.optionsLenTooLarge op arg)
  else if op = 0x30 then .ok (.pcMap arg)
  else
    match formatN.lookup op with
    | some i => if arg = 0 then .ok i else .error (.argNotZero op arg)
    | none => .error (.unassignedOpcode op)

/-- The operation the command word `w` selects, if any (R65). -/
def decodeWord (w : Half) : Option Instr := (decode w).toOption

/-- The `OP` column of R64. -/
def Instr.opcode : Instr → Byte
  | .envClass => 0x01
  | .hvVersion => 0x10
  | .hvIhl => 0x11
  | .hvDscp => 0x12
  | .hvEcn => 0x13
  | .hvTotlen => 0x14
  | .hvIdent => 0x15
  | .hvDf => 0x16
  | .hvMf => 0x17
  | .hvFragoff => 0x18
  | .hvTtl => 0x19
  | .hvProtonum => 0x1A
  | .hvCsumfld => 0x1B
  | .hvSrc => 0x1C
  | .hvDst => 0x1D
  | .hvOptions => 0x1E
  | .csCompute => 0x20
  | .csVerify => 0x21
  | .csComputeN _ => 0x22
  | .csVerifyN _ => 0x23
  | .pcMap _ => 0x30
  | .pcHdr => 0x31
  | .decSummary => 0x40

/-- `ARG`: the immediate of format I, zero in format N (R60). -/
def Instr.arg (i : Instr) : Byte := i.imm.getD 0

/-- The command word of an operation (R60, R64). -/
def encode (i : Instr) : Half := i.opcode ++ i.arg

/-- The command word that stands in the low `nbits` bits of `w`, none when those bits hold more than one
16-bit word: every command is one 16-bit word (R60; log entry 9). -/
def tableWord (nbits w : Nat) : Option Half :=
  if w % 2 ^ nbits < 2 ^ 16 then some (BitVec.ofNat 16 (w % 2 ^ nbits)) else none

/-- The operation the decoder reads from the table's bits `w` of a row `nbits` bits long. -/
def decodeTableWord (nbits w : Nat) : Option Instr := (tableWord nbits w).bind decodeWord

end Sys2Proof
end

