-- ==== Sys2Proof/Machine/State.lean ====
section
/-! DEFINITION. The state of the hardware and its host port, as plain data (`10_state.md`,
`00_scope.md` R16): the frame (`FB`, `FLEN`), the host's moves still to come, the responses given. -/

namespace Sys2Proof.Machine

/-- A byte memory: (offset, byte) pairs, offsets strictly rising (`Memory.wf`). The frame buffer `FB` is
the only memory there is (R40). -/
abbrev Memory := List Host.Cell

/-- The error statuses of R170: codes 1, 2 and 3. `raise` ends an operation with one of them (R171). -/
inductive ErrorKind where
  /-- status 1: the header-length nibble is below 5 (R172) -/
  | headerLengthInvalid
  /-- status 2: a read would fall outside the frame, or total_length exceeds it (R173) -/
  | frameTruncated
  /-- status 3: the command word selects no operation (R174) -/
  | illegalCommand
  deriving DecidableEq, Repr

/-- `SUM[0] .. SUM[5]` of the response record (R25, R162). -/
structure SummaryWords where
  s0 : Word
  s1 : Word
  s2 : Word
  s3 : Word
  s4 : Word
  s5 : Word
  deriving DecidableEq, Repr

/-- The response of one operation, typed as R25 asks: a result, the routing outcome of `DEC.SUMMARY`, or
an error that carries no value. `Response.rsp` gives the record `RSP` bit for bit. -/
inductive Response where
  /-- status 0, `OK`: `VAL`, `AUX` and `SUM` -/
  | done (val aux : Word) (sum : SummaryWords)
  /-- status 4, `NotIPv4`: `VAL[15:0]` is the raw identifier (R175) -/
  | notIPv4 (id : Half)
  /-- status 1, 2 or 3: no value -/
  | failed (kind : ErrorKind)
  deriving DecidableEq, Repr

/-- The moves of the host (R16): replace the frame, or start one operation by writing `CMD` (R24). -/
inductive HostMove where
  /-- `LOAD(bytes)` (R33, R192) -/
  | load (bytes : List Byte)
  /-- `ISSUE(cmd)` -/
  | issue (cmd : Half)
  deriving DecidableEq, Repr

/-- The frame: all the architectural state the hardware has (R20). -/
structure Frame where
  /-- `FB`: the bytes loaded; an offset with no entry holds an unspecified byte (R21, R32, R33) -/
  fb : Memory
  /-- `FLEN`, unsigned (R22) -/
  flen : Word
  deriving DecidableEq, Repr

/-- The state of the machine and its host port. `inbox` and `out` are the model's own fields (log
entries 1 and 3): the core's operations neither read nor write `inbox` and only add to `out`. -/
structure State where
  /-- the current frame (R20 to R22) -/
  frame : Frame
  /-- the host's moves still to come, the next one first; `CMD` is the word of an `issue` at its head,
  taken by the step that runs it and not retained (R24) -/
  inbox : List HostMove
  /-- the responses given so far, the newest first; `RSP` is its head (R25, R194) -/
  out : List Response
  deriving DecidableEq, Repr

/-- Why the machine stops. -/
inductive Fault where
  /-- Raised by any operation whose checks pass and which then reads a frame offset that holds an
  unspecified byte: one at or beyond `FLEN`, or one that no `LOAD` wrote. R32: a model must not give
  these bytes a value. Safe: no state that a `LOAD` or reset leaves reaches it
  (`Obligations.LoadedFrameNeverFaults`). -/
  | unspecifiedFrameByte (offset : Nat)
  deriving DecidableEq, Repr

/-- Why a step has no meaning. -/
inductive Refusal where
  /-- Raised by `exec` alone, for an operation with no meaning yet: none. Safe. -/
  | notModelled (mnemonic : String)
  /-- Raised by a `LOAD` of 2^32 bytes or more, whose length the 32-bit `FLEN` cannot hold (R22; log
  entry 6). Safe: no operation raises it. -/
  | frameTooLong (length : Nat)
  deriving DecidableEq, Repr

/-- The machine right after reset (R32, R190): `FLEN = 0`, no byte of `FB` specified, no command pending,
no response. -/
def State.reset : State := { frame := { fb := [], flen := 0 }, inbox := [], out := [] }

end Sys2Proof.Machine
end

