-- ==== Sys2Proof/Machine/Results.lean ====
section
/-! DEFINITION. The typed results of the operations and their packing into the response record: the
envelope variant (R82), the Protocol variant (R150, R151), the options region (R107), the header
summary (R162), and the record `RSP` itself (R25, R170). -/

namespace Sys2Proof.Machine

/-- `SUM` of every operation but `DEC.SUMMARY`: six zero words (R25). -/
def SummaryWords.zero : SummaryWords := { s0 := 0, s1 := 0, s2 := 0, s3 := 0, s4 := 0, s5 := 0 }

/-- The response record as the host reads it (R25). -/
structure Rsp where
  status : BitVec 4
  val : Word
  aux : Word
  sum : SummaryWords
  deriving DecidableEq, Repr

/-- The status codes 1 to 3 of R170. -/
def ErrorKind.code : ErrorKind → BitVec 4
  | .headerLengthInvalid => 1
  | .frameTruncated => 2
  | .illegalCommand => 3

/-- The record of a response: fields the outcome does not define are zero (R25, R170, R171). -/
def Response.rsp : Response → Rsp
  | .done val aux sum => { status := 0, val := val, aux := aux, sum := sum }
  | .notIPv4 id => { status := 4, val := id.setWidth 32, aux := 0, sum := .zero }
  | .failed kind => { status := kind.code, val := 0, aux := 0, sum := .zero }

/-- The envelope variant (R82). -/
inductive EnvVariant where
  | ipv4
  | other (id : Half)
  deriving DecidableEq, Repr

/-- The classification of the link-layer protocol identifier (R81). -/
def EnvVariant.ofId (id : Half) : EnvVariant :=
  if id = Config.etherTypeIPv4 then .ipv4 else .other id

/-- The packing of R82: `VAL[16]` is the tag, `VAL[15:0]` the raw identifier. -/
def EnvVariant.pack : EnvVariant → Word
  | .ipv4 => 0#15 ++ 1#1 ++ Config.etherTypeIPv4
  | .other id => 0#15 ++ 0#1 ++ id

/-- The Protocol enumeration (R150). -/
inductive Protocol where
  | icmp
  | igmp
  | tcp
  | udp
  | unknown (number : Byte)
  deriving DecidableEq, Repr

/-- The table of R150. -/
def classify (number : Byte) : Protocol :=
  if number = 1 then .icmp
  else if number = 2 then .igmp
  else if number = 6 then .tcp
  else if number = 17 then .udp
  else .unknown number

/-- The protocol number of a variant (R150). -/
def Protocol.number : Protocol → Byte
  | .icmp => 1
  | .igmp => 2
  | .tcp => 6
  | .udp => 17
  | .unknown number => number

/-- The kind codes of R151. -/
def Protocol.kind : Protocol → BitVec 3
  | .unknown _ => 0
  | .icmp => 1
  | .igmp => 2
  | .tcp => 3
  | .udp => 4

/-- The packing of R151: `VAL[10:8]` is the kind, `VAL[7:0]` the number. -/
def Protocol.pack (p : Protocol) : Word := 0#21 ++ p.kind ++ p.number

/-- The options region as an (offset, length) pair into the view (R107). -/
structure OptionsRegion where
  offset : Byte
  length : Byte
  deriving DecidableEq, Repr

/-- The region `[20, h*4)` of a header whose length nibble is `h`, at least 5 (R107). -/
def OptionsRegion.ofIhl (h : BitVec 4) : OptionsRegion :=
  { offset := BitVec.ofNat 8 Config.minHeaderLen
    length := BitVec.ofNat 8 ((h.toNat - Config.ihlMin) * Config.ihlUnit) }

/-- The header summary as a record of the named fields (R162). -/
structure HeaderSummary where
  version : BitVec 4
  headerLength : BitVec 4
  dscp : BitVec 6
  ecn : BitVec 2
  totalLength : Half
  identification : Half
  reserved : BitVec 1
  dontFragment : BitVec 1
  moreFragments : BitVec 1
  fragmentOffset : BitVec 13
  ttl : Byte
  protocolNumber : Byte
  headerChecksum : Half
  sourceAddress : Word
  destinationAddress : Word
  options : OptionsRegion
  deriving DecidableEq, Repr

/-- The packing of R162. -/
def HeaderSummary.pack (r : HeaderSummary) : SummaryWords where
  s0 := r.version ++ r.headerLength ++ r.dscp ++ r.ecn ++ r.totalLength
  s1 := r.identification ++ r.reserved ++ r.dontFragment ++ r.moreFragments ++ r.fragmentOffset
  s2 := r.ttl ++ r.protocolNumber ++ r.headerChecksum
  s3 := r.sourceAddress
  s4 := r.destinationAddress
  s5 := 0#16 ++ r.options.offset ++ r.options.length

end Sys2Proof.Machine
end

