-- ==== Sys2Proof/Machine/Ops.lean ====
section
/-! DEFINITION. The shared operations: the frame buffer's reads (`20_memory.md`), the bounds checks (R45),
`respond` and `raise` (R13, R171: the only thing this hardware has in the place of an exception), the
host's `LOAD` (R33), and the host port. -/

namespace Sys2Proof.Machine

/-! ## Memory -/

/-- What an offset with no entry reads as: nothing, its byte is unspecified (R32, R33; log entry 4). -/
def Memory.unlisted : Option Byte := none

/-- The byte listed at offset `a`. -/
def Memory.read : Memory → Nat → Option Byte
  | [], _ => Memory.unlisted
  | (k, b) :: rest, a => if k = a then some b else Memory.read rest a

/-- The offsets of `m` rise strictly, none below `low`. -/
def Memory.risingFrom : Nat → Memory → Bool
  | _, [] => true
  | low, (k, _) :: rest => decide (low ≤ k) && Memory.risingFrom (k + 1) rest

/-- The canonical form: offsets strictly rising. No entry can equal what an unlisted offset reads as,
since that is no byte. -/
def Memory.wf (m : Memory) : Bool := Memory.risingFrom 0 m

/-- The memory that holds `bytes` from offset `base` on, and nothing else. -/
def Memory.ofBytes : Nat → List Byte → Memory
  | _, [] => []
  | base, b :: rest => (base, b) :: Memory.ofBytes (base + 1) rest

/-! ## Reading the frame -/

/-- `VLEN`: `FLEN - 4` if `FLEN >= 4`, else 0 (R13, R44). -/
def Frame.vlen (f : Frame) : Nat := f.flen.toNat - Config.envelopeLen

/-- `FB[a]`, specified for `a < FLEN` (R13); the only primitive that reads the frame. -/
def Frame.readByte (f : Frame) (a : Nat) : Except Fault Byte :=
  if a < f.flen.toNat then
    match Memory.read f.fb a with
    | some b => .ok b
    | none => .error (.unspecifiedFrameByte a)
  else .error (.unspecifiedFrameByte a)

/-- `n` bytes from frame offset `a` on, lowest offset first. -/
def Frame.readBytes (f : Frame) : Nat → Nat → Except Fault (List Byte)
  | _, 0 => .ok []
  | a, n + 1 => do
    let b ← f.readByte a
    let rest ← f.readBytes (a + 1) n
    .ok (b :: rest)

/-- `MemRead(a, 2)`: big-endian, `FB[a]` the more significant byte (R13, R41). -/
def Frame.memRead16 (f : Frame) (a : Nat) : Except Fault Half := do
  let b0 ← f.readByte a
  let b1 ← f.readByte (a + 1)
  .ok (b0 ++ b1)

/-- `MemRead(a, 4)`: big-endian (R13, R41). -/
def Frame.memRead32 (f : Frame) (a : Nat) : Except Fault Word := do
  let b0 ← f.readByte a
  let b1 ← f.readByte (a + 1)
  let b2 ← f.readByte (a + 2)
  let b3 ← f.readByte (a + 3)
  .ok (b0 ++ b1 ++ b2 ++ b3)

/-- `B[k]`, view octet `k`: `FB[4 + k]` (R13, R90). -/
def Frame.viewByte (f : Frame) (k : Nat) : Except Fault Byte := f.readByte (Config.envelopeLen + k)

/-- `BE16(k)` (R13). -/
def Frame.be16 (f : Frame) (k : Nat) : Except Fault Half := f.memRead16 (Config.envelopeLen + k)

/-- `BE32(k)` (R13). -/
def Frame.be32 (f : Frame) (k : Nat) : Except Fault Word := f.memRead32 (Config.envelopeLen + k)

/-- `B[0] .. B[n-1]` (R131). -/
def Frame.viewBytes (f : Frame) (n : Nat) : Except Fault (List Byte) :=
  f.readBytes Config.envelopeLen n

/-! ## Ending an operation -/

/-- `respond(OK, val, aux)`: `SUM` is zero (R13, R25). -/
def respond (val aux : Word) : Except Fault Response := .ok (.done val aux .zero)

/-- `respond_sum(val, aux, s0..s5)` (R13). -/
def respondSum (val aux : Word) (sum : SummaryWords) : Except Fault Response := .ok (.done val aux sum)

/-- `raise <Kind>`: the operation ends with that status and no value. Nothing is saved, no mode changes
and nothing is transferred: there is no trap (R171, R179). -/
def raise (kind : ErrorKind) : Except Fault Response := .ok (.failed kind)

/-! ## The checks of R45 -/

/-- `if FLEN < 4: raise FrameTruncated` (R45, R81, R161). -/
def withEnvelope (f : Frame) (k : Except Fault Response) : Except Fault Response :=
  if f.flen.toNat < Config.envelopeLen then raise .frameTruncated else k

/-- `if VLEN < need: raise FrameTruncated` (R45, R140). -/
def withViewOf (need : Nat) (f : Frame) (k : Except Fault Response) : Except Fault Response :=
  if f.vlen < need then raise .frameTruncated else k

/-- The whole-view check `VLEN >= 20` (R45, R91). -/
def withView (f : Frame) (k : Except Fault Response) : Except Fault Response :=
  withViewOf Config.minHeaderLen f k

/-! ## One operation as a step of the machine -/

/-- The machine after an operation that responds `r`: nothing but the response changes (R20, R171). -/
def State.answer (s : State) (r : Response) : State := { s with out := r :: s.out }

/-- Run an operation, a function of the frame alone (R14), and answer with its response. -/
def execOn (op : Frame → Except Fault Response) (s : State) : Host.Outcome State Fault Refusal :=
  match op s.frame with
  | .ok r => .next (s.answer r)
  | .error e => .fault e

/-- `RSP`, the last response; none before the first operation (R25, R32). -/
def State.rsp (s : State) : Option Rsp := s.out.head?.map Response.rsp

/-! ## The host port -/

/-- The machine with the host's next moves replaced. -/
def State.withInbox (s : State) (moves : List HostMove) : State := { s with inbox := moves }

/-- The machine with the frame replaced. -/
def State.withFrame (s : State) (f : Frame) : State := { s with frame := f }

/-- The frame a `LOAD(bytes)` leaves: the first `FB_SIZE` bytes in `FB` and nothing else, `FLEN` the
number of bytes received (R21, R33, R192; log entry 5). -/
def Frame.ofBytes (bytes : List Byte) : Frame where
  fb := Memory.ofBytes 0 (bytes.take Config.fbSize)
  flen := BitVec.ofNat 32 bytes.length

/-- `LOAD(bytes)`: every later operation sees only the new frame (R33). A length that `FLEN` cannot hold
is refused (R22; log entry 6). -/
def loadFrame (bytes : List Byte) (s : State) : Host.Outcome State Fault Refusal :=
  if bytes.length < 2 ^ 32 then .next (s.withFrame (.ofBytes bytes))
  else .refused (.frameTooLong bytes.length)

/-- The response to a word that selects no operation: `IllegalCommand`, with no frame access (R66, R174). -/
def illegalCommand (s : State) : Host.Outcome State Fault Refusal :=
  execOn (fun _ => raise .illegalCommand) s

/-- A step with no host move to take: the core is idle and nothing changes (R190, R194; log entry 2). -/
def idle (s : State) : Host.Outcome State Fault Refusal := .next s

/-- Place `ISSUE(w)` as the host's next move. -/
def State.issueNext (s : State) (w : Half) : State := s.withInbox (.issue w :: s.inbox)

end Sys2Proof.Machine
end

