-- ==== Sys2Proof/Machine/Operands.lean ====
section
/-! DEFINITION. The operand forms: the fields of the IPv4 header, sliced out of the view at their fixed
places (`41_header_view.md` R92 and the accessor rules; `v[hi:lo]` has bit 0 least significant, R12),
the header-length check, and the immediate. -/

namespace Sys2Proof.Machine

/-! ## Slices of one octet (the masks of R92) -/

/-- version, `B[0][7:4]` -/
def versionBits (b0 : Byte) : BitVec 4 := b0.extractLsb' 4 4

/-- header_length, `B[0][3:0]` and nothing else (R114) -/
def ihlBits (b0 : Byte) : BitVec 4 := b0.extractLsb' 0 4

/-- DSCP, `B[1][7:2]` -/
def dscpBits (b1 : Byte) : BitVec 6 := b1.extractLsb' 2 6

/-- ECN, `B[1][1:0]` -/
def ecnBits (b1 : Byte) : BitVec 2 := b1.extractLsb' 0 2

/-- the reserved flag, `B[6][7]` -/
def reservedBit (b6 : Byte) : BitVec 1 := b6.extractLsb' 7 1

/-- dont_fragment, `B[6][6]` -/
def dfBit (b6 : Byte) : BitVec 1 := b6.extractLsb' 6 1

/-- more_fragments, `B[6][5]` -/
def mfBit (b6 : Byte) : BitVec 1 := b6.extractLsb' 5 1

/-- fragment_offset, `B[6][4:0] ++ B[7]` -/
def fragoffBits (b6 b7 : Byte) : BitVec 13 := b6.extractLsb' 0 5 ++ b7

/-! ## The fields of the view -/

/-- version (R93) -/
def Frame.version (f : Frame) : Except Fault (BitVec 4) := do
  let b0 ← f.viewByte 0
  .ok (versionBits b0)

/-- the header-length nibble, unchecked (R94) -/
def Frame.ihl (f : Frame) : Except Fault (BitVec 4) := do
  let b0 ← f.viewByte 0
  .ok (ihlBits b0)

/-- DSCP (R95) -/
def Frame.dscp (f : Frame) : Except Fault (BitVec 6) := do
  let b1 ← f.viewByte 1
  .ok (dscpBits b1)

/-- ECN (R96) -/
def Frame.ecn (f : Frame) : Except Fault (BitVec 2) := do
  let b1 ← f.viewByte 1
  .ok (ecnBits b1)

/-- total_length (R97) -/
def Frame.totalLength (f : Frame) : Except Fault Half := f.be16 2

/-- identification (R98) -/
def Frame.identification (f : Frame) : Except Fault Half := f.be16 4

/-- the reserved flag bit (R92, R162) -/
def Frame.reserved (f : Frame) : Except Fault (BitVec 1) := do
  let b6 ← f.viewByte 6
  .ok (reservedBit b6)

/-- dont_fragment (R99) -/
def Frame.dontFragment (f : Frame) : Except Fault (BitVec 1) := do
  let b6 ← f.viewByte 6
  .ok (dfBit b6)

/-- more_fragments (R100) -/
def Frame.moreFragments (f : Frame) : Except Fault (BitVec 1) := do
  let b6 ← f.viewByte 6
  .ok (mfBit b6)

/-- fragment_offset, in units of 8 bytes (R101) -/
def Frame.fragmentOffset (f : Frame) : Except Fault (BitVec 13) := do
  let b6 ← f.viewByte 6
  let b7 ← f.viewByte 7
  .ok (fragoffBits b6 b7)

/-- ttl (R102) -/
def Frame.ttl (f : Frame) : Except Fault Byte := f.viewByte 8

/-- protocol_number (R103) -/
def Frame.protocolNumber (f : Frame) : Except Fault Byte := f.viewByte 9

/-- header_checksum as received (R104) -/
def Frame.headerChecksum (f : Frame) : Except Fault Half := f.be16 10

/-- source_address (R105) -/
def Frame.sourceAddress (f : Frame) : Except Fault Word := f.be32 12

/-- destination_address (R106) -/
def Frame.destinationAddress (f : Frame) : Except Fault Word := f.be32 16

/-- All the fields of R162, each as its accessor gives it. -/
def Frame.headerSummary (f : Frame) : Except Fault HeaderSummary := do
  let version ← f.version
  let headerLength ← f.ihl
  let dscp ← f.dscp
  let ecn ← f.ecn
  let totalLength ← f.totalLength
  let identification ← f.identification
  let reserved ← f.reserved
  let dontFragment ← f.dontFragment
  let moreFragments ← f.moreFragments
  let fragmentOffset ← f.fragmentOffset
  let ttl ← f.ttl
  let protocolNumber ← f.protocolNumber
  let headerChecksum ← f.headerChecksum
  let sourceAddress ← f.sourceAddress
  let destinationAddress ← f.destinationAddress
  .ok { version, headerLength, dscp, ecn, totalLength, identification, reserved, dontFragment,
        moreFragments, fragmentOffset, ttl, protocolNumber, headerChecksum, sourceAddress,
        destinationAddress, options := .ofIhl headerLength }

/-! ## The header-length checks -/

/-- The header is `h*4` bytes long (R94). -/
def headerBytes (h : BitVec 4) : Nat := h.toNat * Config.ihlUnit

/-- `VLEN >= 20`, then `h >= 5`; `k` goes on with the nibble (R45, R94). -/
def withIhl (f : Frame) (k : BitVec 4 → Except Fault Response) : Except Fault Response :=
  withView f do
    let h ← f.ihl
    if h.toNat < Config.ihlMin then raise .headerLengthInvalid else k h

/-- As `withIhl`, then `h*4 <= VLEN`: the checks of `HV.OPTIONS`, `CS.COMPUTE` and `CS.VERIFY` (R45). -/
def withHeader (f : Frame) (k : BitVec 4 → Except Fault Response) : Except Fault Response :=
  withIhl f fun h => if f.vlen < headerBytes h then raise .frameTruncated else k h

/-- A scalar accessor: the view check, then the field, zero-extended into `VAL` (R49, R91, R111). -/
def scalar {n : Nat} (field : Frame → Except Fault (BitVec n)) (f : Frame) : Except Fault Response :=
  withView f do
    let v ← field f
    respond (v.setWidth 32) 0

/-- The explicit-length forms: `n` above 40 is an illegal command, then the view holds `20 + n` bytes;
`k` goes on with the input length (R45, R140, R141). -/
def withOptionsLen (n : Byte) (f : Frame) (k : Nat → Except Fault Response) :
    Except Fault Response :=
  if n.toNat ≤ Config.maxOptionsLen then
    withViewOf (Config.minHeaderLen + n.toNat) f (k (Config.minHeaderLen + n.toNat))
  else raise .illegalCommand

end Sys2Proof.Machine
end

