-- ==== Sys2Proof/Machine/Flags.lean ====
section
/-! DEFINITION. The booleans the hardware computes: checksum-valid and the three constraint flags of
`DEC.SUMMARY` (`44_summary.md` R163). None is kept: each is part of one response (R29). -/

namespace Sys2Proof.Machine

/-- A checksum is valid when the folded sum, before the complement, is `0xFFFF` (R138). -/
def cksumValid (folded : Half) : Bool := folded == 0xFFFF

/-- version is 4 (R163) -/
def verOk (version : BitVec 4) : Bool := version == Config.ipVersion

/-- the reserved flag bit is 0 (R163) -/
def rsvOk (reserved : BitVec 1) : Bool := reserved == 0

/-- `header_length*4 <= total_length` (R163) -/
def lenOk (h : BitVec 4) (totalLength : Half) : Bool := decide (headerBytes h ≤ totalLength.toNat)

/-- `VAL[3:0]` of `DEC.SUMMARY` on status OK (R163). -/
def packFlags (cksum ver rsv len : Bool) : Word :=
  0#28 ++ BitVec.ofBool len ++ BitVec.ofBool rsv ++ BitVec.ofBool ver ++ BitVec.ofBool cksum

end Sys2Proof.Machine
end

