-- ==== Sys2Proof/Machine/HeaderView.lean ====
section
/-! DEFINITION. The IPv4 Header View, the bit slicer (`41_header_view.md`): fourteen scalar accessors and
`HV.OPTIONS`. -/

namespace Sys2Proof.Machine

/-- `HV.VERSION` (R93) -/
def execHvVersion (s : State) : Host.Outcome State Fault Refusal := execOn (scalar Frame.version) s

/-- The header length, valid from 5 up (R94). -/
def hvIhl (f : Frame) : Except Fault Response := withIhl f fun h => respond (h.setWidth 32) 0

/-- `HV.IHL` (R94) -/
def execHvIhl (s : State) : Host.Outcome State Fault Refusal := execOn hvIhl s

/-- `HV.DSCP` (R95) -/
def execHvDscp (s : State) : Host.Outcome State Fault Refusal := execOn (scalar Frame.dscp) s

/-- `HV.ECN` (R96) -/
def execHvEcn (s : State) : Host.Outcome State Fault Refusal := execOn (scalar Frame.ecn) s

/-- `HV.TOTLEN` (R97) -/
def execHvTotlen (s : State) : Host.Outcome State Fault Refusal :=
  execOn (scalar Frame.totalLength) s

/-- `HV.IDENT` (R98) -/
def execHvIdent (s : State) : Host.Outcome State Fault Refusal :=
  execOn (scalar Frame.identification) s

/-- `HV.DF` (R99) -/
def execHvDf (s : State) : Host.Outcome State Fault Refusal := execOn (scalar Frame.dontFragment) s

/-- `HV.MF` (R100) -/
def execHvMf (s : State) : Host.Outcome State Fault Refusal := execOn (scalar Frame.moreFragments) s

/-- `HV.FRAGOFF` (R101) -/
def execHvFragoff (s : State) : Host.Outcome State Fault Refusal :=
  execOn (scalar Frame.fragmentOffset) s

/-- `HV.TTL` (R102) -/
def execHvTtl (s : State) : Host.Outcome State Fault Refusal := execOn (scalar Frame.ttl) s

/-- `HV.PROTONUM` (R103) -/
def execHvProtonum (s : State) : Host.Outcome State Fault Refusal :=
  execOn (scalar Frame.protocolNumber) s

/-- `HV.CSUMFLD` (R104) -/
def execHvCsumfld (s : State) : Host.Outcome State Fault Refusal :=
  execOn (scalar Frame.headerChecksum) s

/-- `HV.SRC` (R105) -/
def execHvSrc (s : State) : Host.Outcome State Fault Refusal := execOn (scalar Frame.sourceAddress) s

/-- `HV.DST` (R106) -/
def execHvDst (s : State) : Host.Outcome State Fault Refusal :=
  execOn (scalar Frame.destinationAddress) s

/-- The options region as a descriptor; no option byte is read (R107). -/
def hvOptions (f : Frame) : Except Fault Response :=
  withHeader f fun h =>
    let region := OptionsRegion.ofIhl h
    respond (region.offset.setWidth 32) (region.length.setWidth 32)

/-- `HV.OPTIONS` (R107) -/
def execHvOptions (s : State) : Host.Outcome State Fault Refusal := execOn hvOptions s

end Sys2Proof.Machine
end

