-- ==== Sys2Proof/Machine/Protocols.lean ====
section
/-! DEFINITION. The Protocol Classifier (`43_protocol.md`). -/

namespace Sys2Proof.Machine

/-- `PC.MAP imm`: reads no frame byte (R152). -/
def pcMap (imm : Byte) (_ : Frame) : Except Fault Response := respond (classify imm).pack 0

/-- `PC.MAP imm` (R152) -/
def execPcMap (imm : Byte) (s : State) : Host.Outcome State Fault Refusal := execOn (pcMap imm) s

/-- The classifier on view octet 9 (R153). -/
def pcHdr (f : Frame) : Except Fault Response :=
  withView f do
    let p ← f.protocolNumber
    respond (classify p).pack 0

/-- `PC.HDR` (R153) -/
def execPcHdr (s : State) : Host.Outcome State Fault Refusal := execOn pcHdr s

end Sys2Proof.Machine
end

