-- ==== Sys2Proof/Machine/Checksum.lean ====
section
/-! DEFINITION. The Checksum Engine (`42_checksum.md`): the one's-complement sum `fold_sum` (R145) and the
four operations over it. -/

namespace Sys2Proof.Machine

/-- The two modes of the engine (R133). -/
inductive SumMode where
  | compute
  | verify
  deriving DecidableEq, Repr

/-- Step 1: 16-bit big-endian words; an odd final byte is the high byte of a word whose low byte is zero
(R132). -/
def wordsOf : List Byte → List Half
  | [] => []
  | [hi] => [hi ++ 0#8]
  | hi :: lo :: rest => (hi ++ lo) :: wordsOf rest

/-- In compute mode the header_checksum word counts as 0 (R133). -/
def maskField : SumMode → List Half → List Half
  | .compute, ws => ws.set Config.checksumWordIndex 0
  | .verify, ws => ws

/-- Step 2: ordinary addition in the 32-bit accumulator, from 0 (R133). -/
def accumulate (ws : List Half) : Word := ws.foldl (fun acc w => acc + w.setWidth 32) 0

/-- `acc[31:16] + acc[15:0]` (R135). -/
def foldOnce (acc : Word) : Word :=
  (acc.extractLsb' 16 16).setWidth 32 + (acc.extractLsb' 0 16).setWidth 32

/-- Step 3, at most `n` rounds of the fold loop (R135). -/
def foldLoop : Nat → Word → Word
  | 0, acc => acc
  | n + 1, acc => if acc.extractLsb' 16 16 = 0 then acc else foldLoop n (foldOnce acc)

/-- Step 3: the folded sum of an accumulator (R135). -/
def foldAcc (acc : Word) : Half := (foldLoop Config.maxFolds acc).extractLsb' 0 16

/-- `fold_sum` on the input bytes (R145). -/
def foldSumBytes (mode : SumMode) (bytes : List Byte) : Half :=
  foldAcc (accumulate (maskField mode (wordsOf bytes)))

/-- `fold_sum(L, mode)` on the view (R145). -/
def Frame.foldSum (f : Frame) (len : Nat) (mode : SumMode) : Except Fault Half := do
  let bytes ← f.viewBytes len
  .ok (foldSumBytes mode bytes)

/-- The result of compute mode: step 4 the complement, and the folded sum (R136, R137). -/
def computeResult (f : Frame) (len : Nat) : Except Fault Response := do
  let folded ← f.foldSum len .compute
  respond ((~~~folded).setWidth 32) (folded.setWidth 32)

/-- The result of verify mode: the verdict, and the folded sum (R138). -/
def verifyResult (f : Frame) (len : Nat) : Except Fault Response := do
  let folded ← f.foldSum len .verify
  respond ((BitVec.ofBool (cksumValid folded)).setWidth 32) (folded.setWidth 32)

/-- The length from the header, compute mode (R137). -/
def csCompute (f : Frame) : Except Fault Response :=
  withHeader f fun h => computeResult f (headerBytes h)

/-- `CS.COMPUTE` (R137) -/
def execCsCompute (s : State) : Host.Outcome State Fault Refusal := execOn csCompute s

/-- The length from the header, verify mode (R138). -/
def csVerify (f : Frame) : Except Fault Response :=
  withHeader f fun h => verifyResult f (headerBytes h)

/-- `CS.VERIFY` (R138) -/
def execCsVerify (s : State) : Host.Outcome State Fault Refusal := execOn csVerify s

/-- The options length as an immediate, compute mode (R140). -/
def csComputeN (n : Byte) (f : Frame) : Except Fault Response := withOptionsLen n f (computeResult f)

/-- `CS.COMPUTE.N n` (R140) -/
def execCsComputeN (n : Byte) (s : State) : Host.Outcome State Fault Refusal :=
  execOn (csComputeN n) s

/-- The options length as an immediate, verify mode (R141). -/
def csVerifyN (n : Byte) (f : Frame) : Except Fault Response := withOptionsLen n f (verifyResult f)

/-- `CS.VERIFY.N n` (R141) -/
def execCsVerifyN (n : Byte) (s : State) : Host.Outcome State Fault Refusal :=
  execOn (csVerifyN n) s

end Sys2Proof.Machine
end

