-- ==== Sys2Proof/Machine/Envelope.lean ====
section
/-! DEFINITION. The Frame Envelope Classifier (`40_envelope.md`). -/

namespace Sys2Proof.Machine

/-- The link-layer protocol identifier, frame offsets 2 and 3 (R81). -/
def Frame.linkId (f : Frame) : Except Fault Half := f.memRead16 2

/-- `ENV.CLASS` (R81). The two flags bytes are read and discarded (R46, R83). -/
def envClass (f : Frame) : Except Fault Response :=
  withEnvelope f do
    let _flags ← f.memRead16 0
    let id ← f.linkId
    respond (EnvVariant.ofId id).pack 0

/-- `ENV.CLASS` -/
def execEnvClass (s : State) : Host.Outcome State Fault Refusal := execOn envClass s

end Sys2Proof.Machine
end

