-- ==== Sys2Proof/Machine/Summary.lean ====
section
/-! DEFINITION. The composite decode `DEC.SUMMARY` (`44_summary.md`). -/

namespace Sys2Proof.Machine

/-- Lines 10 to 16 of R161: the flags, the Protocol variant and the summary words. -/
def summaryResult (f : Frame) (h : BitVec 4) (totalLength : Half) : Except Fault Response := do
  let folded ← f.foldSum (headerBytes h) .verify
  let header ← f.headerSummary
  respondSum
    (packFlags (cksumValid folded) (verOk header.version) (rsvOk header.reserved)
      (lenOk h totalLength))
    (classify header.protocolNumber).pack header.pack

/-- The flow of R161: envelope, view, header length, total_length, then the summary. -/
def decSummary (f : Frame) : Except Fault Response :=
  withEnvelope f do
    let id ← f.linkId
    match EnvVariant.ofId id with
    | .other raw => .ok (.notIPv4 raw)
    | .ipv4 => withHeader f fun h => do
        let totalLength ← f.totalLength
        if f.vlen < totalLength.toNat then raise .frameTruncated
        else summaryResult f h totalLength

/-- `DEC.SUMMARY` (R161) -/
def execDecSummary (s : State) : Host.Outcome State Fault Refusal := execOn decSummary s

end Sys2Proof.Machine
end

