-- ==== Sys2Proof/Machine/Dispatch.lean ====
section
/-! DEFINITION. One arm per operation: its meaning. -/

namespace Sys2Proof.Machine

def exec (i : Instr) (s : State) : Host.Outcome State Fault Refusal :=
  match i with
  -- ENV family
  | .envClass => Sys2Proof.Machine.execEnvClass s
  -- HV family
  | .hvVersion => Sys2Proof.Machine.execHvVersion s
  | .hvIhl => Sys2Proof.Machine.execHvIhl s
  | .hvDscp => Sys2Proof.Machine.execHvDscp s
  | .hvEcn => Sys2Proof.Machine.execHvEcn s
  | .hvTotlen => Sys2Proof.Machine.execHvTotlen s
  | .hvIdent => Sys2Proof.Machine.execHvIdent s
  | .hvDf => Sys2Proof.Machine.execHvDf s
  | .hvMf => Sys2Proof.Machine.execHvMf s
  | .hvFragoff => Sys2Proof.Machine.execHvFragoff s
  | .hvTtl => Sys2Proof.Machine.execHvTtl s
  | .hvProtonum => Sys2Proof.Machine.execHvProtonum s
  | .hvCsumfld => Sys2Proof.Machine.execHvCsumfld s
  | .hvSrc => Sys2Proof.Machine.execHvSrc s
  | .hvDst => Sys2Proof.Machine.execHvDst s
  | .hvOptions => Sys2Proof.Machine.execHvOptions s
  -- CS family
  | .csCompute => Sys2Proof.Machine.execCsCompute s
  | .csVerify => Sys2Proof.Machine.execCsVerify s
  | .csComputeN n => Sys2Proof.Machine.execCsComputeN n s
  | .csVerifyN n => Sys2Proof.Machine.execCsVerifyN n s
  -- PC family
  | .pcMap imm => Sys2Proof.Machine.execPcMap imm s
  | .pcHdr => Sys2Proof.Machine.execPcHdr s
  -- DEC family
  | .decSummary => Sys2Proof.Machine.execDecSummary s

end Sys2Proof.Machine
end

