-- ==== Sys2Proof/Machine/Step.lean ====
section
/-! DEFINITION. One step of the machine: take the host's next move (`00_scope.md` R16). A `LOAD` replaces
the frame; an `ISSUE` runs the operation its command word selects, or is answered `IllegalCommand`. -/

namespace Sys2Proof.Machine

/-- One move of the host, atomically (R16, R50). -/
def step (s : State) : Host.Outcome State Fault Refusal :=
  match s.inbox with
  | [] => idle s
  | .load bytes :: rest => loadFrame bytes (s.withInbox rest)
  | .issue w :: rest =>
    match decodeWord w with
    | some i => exec i (s.withInbox rest)
    | none => illegalCommand (s.withInbox rest)

/-- The command whose table bits are `w` as the host's next move (log entry 9). -/
def State.withFetchWord (s : State) (nbits w : Nat) : State :=
  s.issueNext (BitVec.ofNat 16 (w % 2 ^ nbits))

end Sys2Proof.Machine
end

