-- ==== Sys2Proof/Safety.lean ====
section
/-! DEFINITION. What counts as a good state and a safe run, and the terms the claims use: the footprint of
an operation (`20_memory.md` R46), and the header and its checksum as numbers, written from the formulas
of the rules rather than from the machine's slices and loops. -/

namespace Sys2Proof.Machine

/-! ## Good states and safe runs -/

/-- The frame is as a `LOAD` leaves it (R21, R33, R192): the buffer is in canonical form, every byte it
lists stands below `FLEN` and below `FB_SIZE`, and every offset below both is listed. -/
structure Frame.Loaded (f : Frame) : Prop where
  canonical : Memory.wf f.fb = true
  inside : ∀ a b, Memory.read f.fb a = some b → a < f.flen.toNat ∧ a < Config.fbSize
  present : ∀ a, a < f.flen.toNat → a < Config.fbSize → ∃ b, Memory.read f.fb a = some b

/-- A host move that `FLEN` can hold: every `ISSUE`, and every `LOAD` of fewer than 2^32 bytes (R22). -/
def HostMove.fits : HostMove → Bool
  | .load bytes => decide (bytes.length < 2 ^ 32)
  | .issue _ => true

/-- The move is an `ISSUE`: the moves that get a response (R16). -/
def HostMove.isIssue : HostMove → Bool
  | .load _ => false
  | .issue _ => true

/-- The frame after the host's moves: the last one loaded, or `f` when none was (R194). -/
def lastFrame (f : Frame) : List HostMove → Frame
  | [] => f
  | .load bytes :: rest => lastFrame (.ofBytes bytes) rest
  | .issue _ :: rest => lastFrame f rest

/-- A run of the machine that never stops with a fault. -/
def SafeRun (s : State) : Prop := ∀ k e, Host.Core.run Sys2Proof.core k s ≠ .fault e

/-! ## The read footprint (R46) -/

/-- Frame offset 4, which holds the nibble, and the header `4 .. 4 + IHL*4 - 1` the nibble declares. -/
def headerOffsets (f : Frame) : List Nat :=
  match f.viewByte 0 with
  | .ok b0 => 4 :: (List.range (b0.toNat % 16 * 4)).map (4 + ·)
  | .error _ => [4]

/-- The frame offsets an operation may read (the table of R46). -/
def footprint (i : Instr) (f : Frame) : List Nat :=
  match i with
  | .envClass => [0, 1, 2, 3]
  | .hvVersion | .hvIhl => [4]
  | .hvDscp | .hvEcn => [5]
  | .hvTotlen => [6, 7]
  | .hvIdent => [8, 9]
  | .hvDf | .hvMf => [10]
  | .hvFragoff => [10, 11]
  | .hvTtl => [12]
  | .hvProtonum | .pcHdr => [13]
  | .hvCsumfld => [14, 15]
  | .hvSrc => [16, 17, 18, 19]
  | .hvDst => [20, 21, 22, 23]
  | .hvOptions => [4]
  | .csCompute | .csVerify => headerOffsets f
  | .csComputeN n | .csVerifyN n => (List.range (20 + n.toNat)).map (4 + ·)
  | .pcMap _ => []
  | .decSummary => [0, 1, 2, 3] ++ headerOffsets f

/-! ## The header as numbers -/

/-- `bytes` are the first bytes of the view: `B[k] = bytes[k]` (R90). -/
def Frame.HasView (f : Frame) (bytes : List Byte) : Prop :=
  ∀ k (h : k < bytes.length), f.viewByte k = .ok bytes[k]

/-- Octet `k` as a number, 0 beyond the end (the pad byte of R132). -/
def octet (bytes : List Byte) (k : Nat) : Nat := (bytes.getD k 0).toNat

/-- Octets `k` and `k + 1` as a big-endian number (R41). -/
def octet2 (bytes : List Byte) (k : Nat) : Nat := octet bytes k * 256 + octet bytes (k + 1)

/-- Octets `k` to `k + 3` as a big-endian number (R41). -/
def octet4 (bytes : List Byte) (k : Nat) : Nat := octet2 bytes k * 65536 + octet2 bytes (k + 2)

/-- What word `j` adds to the accumulator (R132, R133). -/
def wordAt (mode : SumMode) (bytes : List Byte) (j : Nat) : Nat :=
  if mode = .compute ∧ j = 5 then 0 else octet2 bytes (2 * j)

/-- The accumulator after step 2, as an exact sum: `ceil(L/2)` words (R132, R133). -/
def wordTotal (mode : SumMode) (bytes : List Byte) : Nat :=
  ∑ j ∈ Finset.range ((bytes.length + 1) / 2), wordAt mode bytes j

/-- The closed form of the folded sum (R135). -/
def endAround (acc : Nat) : Nat := if acc = 0 then 0 else (acc - 1) % 65535 + 1

/-- The kind codes of R151, from the number: 1 ICMP, 2 IGMP, 3 TCP, 4 UDP, 0 every other number. -/
def protocolKind (number : Nat) : Nat :=
  if number = 1 then 1 else if number = 2 then 2 else if number = 6 then 3
  else if number = 17 then 4 else 0

end Sys2Proof.Machine
end

