-- ==== Sys2Proof/Certificates/Slice0/Obligations.lean ====
section
/-! DEFINITION. The statements for the provers, in the order of OBLIGATIONS.json. A statement of an
operation's result has the machine's next state as its conclusion: `s.answer r` is the state `s` with the
response `r` added and nothing else changed. The results are computed here with plain arithmetic on the
octets, from the words of the rules, not with the machine's slices. -/

open Sys2Proof Sys2Proof.Machine

/-- R64: every row of the opcode map decodes to its operation. -/
def Obligations.OpcodeMapDecodes : Prop :=
  (decode 0x0100 = .ok .envClass ∧ decode 0x1000 = .ok .hvVersion ∧ decode 0x1100 = .ok .hvIhl ∧
    decode 0x1200 = .ok .hvDscp ∧ decode 0x1300 = .ok .hvEcn ∧ decode 0x1400 = .ok .hvTotlen ∧
    decode 0x1500 = .ok .hvIdent ∧ decode 0x1600 = .ok .hvDf ∧ decode 0x1700 = .ok .hvMf ∧
    decode 0x1800 = .ok .hvFragoff ∧ decode 0x1900 = .ok .hvTtl ∧ decode 0x1A00 = .ok .hvProtonum ∧
    decode 0x1B00 = .ok .hvCsumfld ∧ decode 0x1C00 = .ok .hvSrc ∧ decode 0x1D00 = .ok .hvDst ∧
    decode 0x1E00 = .ok .hvOptions ∧ decode 0x2000 = .ok .csCompute ∧
    decode 0x2100 = .ok .csVerify ∧ decode 0x3100 = .ok .pcHdr ∧ decode 0x4000 = .ok .decSummary) ∧
  (∀ n : Byte, n.toNat ≤ 40 →
    decode (BitVec.ofNat 16 (0x2200 + n.toNat)) = .ok (.csComputeN n) ∧
    decode (BitVec.ofNat 16 (0x2300 + n.toNat)) = .ok (.csVerifyN n)) ∧
  (∀ n : Byte, decode (BitVec.ofNat 16 (0x3000 + n.toNat)) = .ok (.pcMap n))

/-- Decode and encode agree, over all 23 operations and every legal immediate (R60 to R65). -/
def Obligations.DecodeOfEncodeIsIdentity : Prop :=
  ∀ i : Instr, i.wf = true → decode (encode i) = .ok i

/-- Each legal word has one meaning and each operation one word (R60, R65). -/
def Obligations.EncodeOfDecodeIsIdentity : Prop :=
  ∀ (w : Half) (i : Instr), decode w = .ok i → i.wf = true ∧ encode i = w

/-- R66, R174: the words that select no operation, and what the core answers to them. -/
def Obligations.IllegalWordsAnswerIllegalCommand : Prop :=
  ∀ w : Half,
    let op := w.toNat / 256
    let arg := w.toNat % 256
    let illegal :=
      op = 0 ∨ (2 ≤ op ∧ op ≤ 0x0F) ∨ op = 0x1F ∨ (0x24 ≤ op ∧ op ≤ 0x2F) ∨
      (0x32 ≤ op ∧ op ≤ 0x3F) ∨ 0x41 ≤ op ∨
      ((op = 1 ∨ (0x10 ≤ op ∧ op ≤ 0x1E) ∨ op = 0x20 ∨ op = 0x21 ∨ op = 0x31 ∨ op = 0x40) ∧
        arg ≠ 0) ∨
      ((op = 0x22 ∨ op = 0x23) ∧ 40 < arg)
    (decodeWord w = none ↔ illegal) ∧
    ∀ (s : State) (rest : List HostMove), illegal → s.inbox = .issue w :: rest →
      step s = .next ((s.withInbox rest).answer (.failed .illegalCommand))

/-- The counts of R65 (marked derived there): 358 of the 65536 words are legal. -/
def Obligations.LegalWordCount : Prop :=
  ∃ ws : List Half, ws.length = 358 ∧ ws.Nodup ∧ ∀ w : Half, w ∈ ws ↔ ∃ i, decode w = .ok i

/-- A step runs the decoded operation (R16, R24, R65); nothing stands around `exec` but taking the move. -/
def Obligations.StepRunsTheIssuedOperation : Prop :=
  (∀ (s : State) (w : Half) (rest : List HostMove) (i : Instr),
    s.inbox = .issue w :: rest → decode w = .ok i → step s = exec i (s.withInbox rest)) ∧
  (∀ (s : State) (i : Instr), i.wf = true → step (s.issueNext (encode i)) = exec i s)

/-- R33: what a `LOAD` leaves. The cut at `FB_SIZE` and the refusal are the model's choices (log entries 5 and 6). -/
def Obligations.LoadReplacesTheFrame : Prop :=
  ∀ (s : State) (bytes : List Byte) (rest : List HostMove), s.inbox = .load bytes :: rest →
    (bytes.length < 2 ^ 32 → ∃ t, step s = .next t ∧
      t.frame.flen.toNat = bytes.length ∧
      (∀ i (h : i < bytes.length), i < Config.fbSize → t.frame.readByte i = .ok bytes[i]) ∧
      (∀ i, bytes.length ≤ i ∨ Config.fbSize ≤ i →
        t.frame.readByte i = .error (.unspecifiedFrameByte i)) ∧
      t.inbox = rest ∧ t.out = s.out) ∧
    (2 ^ 32 ≤ bytes.length → step s = .refused (.frameTooLong bytes.length))

/-- The core is idle after every response (R190, R194); that an idle step is a next state is the model's choice (log entry 2). -/
def Obligations.IdleStepChangesNothing : Prop :=
  ∀ s : State, s.inbox = [] → step s = .next s

/-- R190: what reset leaves. -/
def Obligations.ResetStateIsEmpty : Prop :=
  State.reset.frame.flen = 0 ∧
  (∀ a, Memory.read State.reset.frame.fb a = none ∧
    State.reset.frame.readByte a = .error (.unspecifiedFrameByte a)) ∧
  State.reset.inbox = [] ∧ State.reset.out = [] ∧ State.reset.rsp = none

/-- R191 (marked derived there): operations issued before the first `LOAD`. -/
def Obligations.BeforeFirstLoadEverythingIsTruncated : Prop :=
  ∀ (s : State) (i : Instr), s.frame.flen = 0 → i.wf = true →
    exec i s = .next (s.answer (match i with
      | .pcMap n => .done (BitVec.ofNat 32 (protocolKind n.toNat * 256 + n.toNat)) 0 .zero
      | _ => .failed .frameTruncated))

/-- The invariant of `StepKeepsTheFrameLoaded` holds at reset. -/
def Obligations.ResetFrameIsLoaded : Prop :=
  State.reset.frame.Loaded

/-- The invariant every step keeps, from every state that has it. -/
def Obligations.StepKeepsTheFrameLoaded : Prop :=
  ∀ s t : State, s.frame.Loaded → step s = .next t → t.frame.Loaded

/-- Safety: no byte of the unspecified part of `FB` reaches a response, in any run (R32, R45). That a step
is refused only on a `LOAD` of 2^32 bytes or more is the model's choice: log entry 6, DEDUCED from R22. -/
def Obligations.LoadedFrameNeverFaults : Prop :=
  ∀ s : State, s.frame.Loaded →
    SafeRun s ∧
    ∀ r, step s = .refused r →
      ∃ bytes rest, s.inbox = .load bytes :: rest ∧ 2 ^ 32 ≤ bytes.length ∧
        r = .frameTooLong bytes.length

/-- Every byte string is a legal frame and gets a defined response (R14, R193, R199); the `IllegalCommand`
clause rests on R140, R141 and R45 and on log entry 8 (DEDUCED). -/
def Obligations.EveryOperationAnswers : Prop :=
  ∀ (i : Instr) (s : State), s.frame.Loaded →
    ∃ r, exec i s = .next (s.answer r) ∧ (r = .failed .illegalCommand ↔ i.wf = false)

/-- The frame statement of every operation: no operation has a store (R7), and nothing it does is remembered (R20). -/
def Obligations.OperationsChangeOnlyTheResponse : Prop :=
  ∀ (i : Instr) (s t : State), exec i s = .next t →
    t.frame.flen = s.frame.flen ∧
    (∀ a, Memory.read t.frame.fb a = Memory.read s.frame.fb a) ∧
    (∀ a, t.frame.readByte a = s.frame.readByte a) ∧
    t.frame = s.frame ∧ t.inbox = s.inbox ∧ ∃ r, t.out = r :: s.out

/-- R81: the envelope classifier. -/
def Obligations.EnvClassResult : Prop :=
  decode 0x0100 = .ok .envClass ∧
  ∀ s : State,
    (s.frame.flen.toNat < 4 →
      exec .envClass s = .next (s.answer (.failed .frameTruncated))) ∧
    ∀ b0 b1 b2 b3 : Byte, 4 ≤ s.frame.flen.toNat →
      s.frame.readByte 0 = .ok b0 → s.frame.readByte 1 = .ok b1 →
      s.frame.readByte 2 = .ok b2 → s.frame.readByte 3 = .ok b3 →
      exec .envClass s = .next (s.answer (.done
        (BitVec.ofNat 32
          ((if b2.toNat * 256 + b3.toNat = 0x0800 then 65536 else 0) + b2.toNat * 256 + b3.toNat))
        0 .zero))

/-- R93: `HV.VERSION`. -/
def Obligations.HvVersionResult : Prop :=
  decode 0x1000 = .ok .hvVersion ∧
  ∀ s : State,
    (s.frame.vlen < 20 → exec .hvVersion s = .next (s.answer (.failed .frameTruncated))) ∧
    ∀ b0 : Byte, 20 ≤ s.frame.vlen →
      s.frame.viewByte 0 = .ok b0 →
      exec .hvVersion s = .next (s.answer (.done (BitVec.ofNat 32 (b0.toNat / 16)) 0 .zero))

/-- R94: `HV.IHL`. -/
def Obligations.HvIhlResult : Prop :=
  decode 0x1100 = .ok .hvIhl ∧
  ∀ s : State,
    (s.frame.vlen < 20 → exec .hvIhl s = .next (s.answer (.failed .frameTruncated))) ∧
    ∀ b0 : Byte, 20 ≤ s.frame.vlen → s.frame.viewByte 0 = .ok b0 →
      (b0.toNat % 16 < 5 → exec .hvIhl s = .next (s.answer (.failed .headerLengthInvalid))) ∧
      (5 ≤ b0.toNat % 16 →
        exec .hvIhl s = .next (s.answer (.done (BitVec.ofNat 32 (b0.toNat % 16)) 0 .zero)))

/-- R95: `HV.DSCP`. -/
def Obligations.HvDscpResult : Prop :=
  decode 0x1200 = .ok .hvDscp ∧
  ∀ s : State,
    (s.frame.vlen < 20 → exec .hvDscp s = .next (s.answer (.failed .frameTruncated))) ∧
    ∀ b1 : Byte, 20 ≤ s.frame.vlen →
      s.frame.viewByte 1 = .ok b1 →
      exec .hvDscp s = .next (s.answer (.done (BitVec.ofNat 32 (b1.toNat / 4)) 0 .zero))

/-- R96: `HV.ECN`. -/
def Obligations.HvEcnResult : Prop :=
  decode 0x1300 = .ok .hvEcn ∧
  ∀ s : State,
    (s.frame.vlen < 20 → exec .hvEcn s = .next (s.answer (.failed .frameTruncated))) ∧
    ∀ b1 : Byte, 20 ≤ s.frame.vlen →
      s.frame.viewByte 1 = .ok b1 →
      exec .hvEcn s = .next (s.answer (.done (BitVec.ofNat 32 (b1.toNat % 4)) 0 .zero))

/-- R97: `HV.TOTLEN`. -/
def Obligations.HvTotlenResult : Prop :=
  decode 0x1400 = .ok .hvTotlen ∧
  ∀ s : State,
    (s.frame.vlen < 20 → exec .hvTotlen s = .next (s.answer (.failed .frameTruncated))) ∧
    ∀ b2 b3 : Byte, 20 ≤ s.frame.vlen →
      s.frame.viewByte 2 = .ok b2 → s.frame.viewByte 3 = .ok b3 →
      exec .hvTotlen s = .next (s.answer (.done (BitVec.ofNat 32 (b2.toNat * 256 + b3.toNat)) 0 .zero))

/-- R98: `HV.IDENT`. -/
def Obligations.HvIdentResult : Prop :=
  decode 0x1500 = .ok .hvIdent ∧
  ∀ s : State,
    (s.frame.vlen < 20 → exec .hvIdent s = .next (s.answer (.failed .frameTruncated))) ∧
    ∀ b4 b5 : Byte, 20 ≤ s.frame.vlen →
      s.frame.viewByte 4 = .ok b4 → s.frame.viewByte 5 = .ok b5 →
      exec .hvIdent s = .next (s.answer (.done (BitVec.ofNat 32 (b4.toNat * 256 + b5.toNat)) 0 .zero))

/-- R99: `HV.DF`. -/
def Obligations.HvDfResult : Prop :=
  decode 0x1600 = .ok .hvDf ∧
  ∀ s : State,
    (s.frame.vlen < 20 → exec .hvDf s = .next (s.answer (.failed .frameTruncated))) ∧
    ∀ b6 : Byte, 20 ≤ s.frame.vlen →
      s.frame.viewByte 6 = .ok b6 →
      exec .hvDf s = .next (s.answer (.done (BitVec.ofNat 32 (b6.toNat / 64 % 2)) 0 .zero))

/-- R100: `HV.MF`. -/
def Obligations.HvMfResult : Prop :=
  decode 0x1700 = .ok .hvMf ∧
  ∀ s : State,
    (s.frame.vlen < 20 → exec .hvMf s = .next (s.answer (.failed .frameTruncated))) ∧
    ∀ b6 : Byte, 20 ≤ s.frame.vlen →
      s.frame.viewByte 6 = .ok b6 →
      exec .hvMf s = .next (s.answer (.done (BitVec.ofNat 32 (b6.toNat / 32 % 2)) 0 .zero))

/-- R101: `HV.FRAGOFF`. -/
def Obligations.HvFragoffResult : Prop :=
  decode 0x1800 = .ok .hvFragoff ∧
  ∀ s : State,
    (s.frame.vlen < 20 → exec .hvFragoff s = .next (s.answer (.failed .frameTruncated))) ∧
    ∀ b6 b7 : Byte, 20 ≤ s.frame.vlen →
      s.frame.viewByte 6 = .ok b6 → s.frame.viewByte 7 = .ok b7 →
      exec .hvFragoff s = .next (s.answer (.done (BitVec.ofNat 32 (b6.toNat % 32 * 256 + b7.toNat)) 0 .zero))

/-- R102: `HV.TTL`. -/
def Obligations.HvTtlResult : Prop :=
  decode 0x1900 = .ok .hvTtl ∧
  ∀ s : State,
    (s.frame.vlen < 20 → exec .hvTtl s = .next (s.answer (.failed .frameTruncated))) ∧
    ∀ b8 : Byte, 20 ≤ s.frame.vlen →
      s.frame.viewByte 8 = .ok b8 →
      exec .hvTtl s = .next (s.answer (.done (BitVec.ofNat 32 (b8.toNat)) 0 .zero))

/-- R103: `HV.PROTONUM`. -/
def Obligations.HvProtonumResult : Prop :=
  decode 0x1A00 = .ok .hvProtonum ∧
  ∀ s : State,
    (s.frame.vlen < 20 → exec .hvProtonum s = .next (s.answer (.failed .frameTruncated))) ∧
    ∀ b9 : Byte, 20 ≤ s.frame.vlen →
      s.frame.viewByte 9 = .ok b9 →
      exec .hvProtonum s = .next (s.answer (.done (BitVec.ofNat 32 (b9.toNat)) 0 .zero))

/-- R104: `HV.CSUMFLD`. -/
def Obligations.HvCsumfldResult : Prop :=
  decode 0x1B00 = .ok .hvCsumfld ∧
  ∀ s : State,
    (s.frame.vlen < 20 → exec .hvCsumfld s = .next (s.answer (.failed .frameTruncated))) ∧
    ∀ b10 b11 : Byte, 20 ≤ s.frame.vlen →
      s.frame.viewByte 10 = .ok b10 → s.frame.viewByte 11 = .ok b11 →
      exec .hvCsumfld s = .next (s.answer (.done (BitVec.ofNat 32 (b10.toNat * 256 + b11.toNat)) 0 .zero))

/-- R105: `HV.SRC`. -/
def Obligations.HvSrcResult : Prop :=
  decode 0x1C00 = .ok .hvSrc ∧
  ∀ s : State,
    (s.frame.vlen < 20 → exec .hvSrc s = .next (s.answer (.failed .frameTruncated))) ∧
    ∀ b12 b13 b14 b15 : Byte, 20 ≤ s.frame.vlen →
      s.frame.viewByte 12 = .ok b12 → s.frame.viewByte 13 = .ok b13 →
      s.frame.viewByte 14 = .ok b14 → s.frame.viewByte 15 = .ok b15 →
      exec .hvSrc s = .next (s.answer (.done (BitVec.ofNat 32 (((b12.toNat * 256 + b13.toNat) * 256 + b14.toNat) * 256 + b15.toNat)) 0 .zero))

/-- R106: `HV.DST`. -/
def Obligations.HvDstResult : Prop :=
  decode 0x1D00 = .ok .hvDst ∧
  ∀ s : State,
    (s.frame.vlen < 20 → exec .hvDst s = .next (s.answer (.failed .frameTruncated))) ∧
    ∀ b16 b17 b18 b19 : Byte, 20 ≤ s.frame.vlen →
      s.frame.viewByte 16 = .ok b16 → s.frame.viewByte 17 = .ok b17 →
      s.frame.viewByte 18 = .ok b18 → s.frame.viewByte 19 = .ok b19 →
      exec .hvDst s = .next (s.answer (.done (BitVec.ofNat 32 (((b16.toNat * 256 + b17.toNat) * 256 + b18.toNat) * 256 + b19.toNat)) 0 .zero))

/-- R107: `HV.OPTIONS`. -/
def Obligations.HvOptionsResult : Prop :=
  decode 0x1E00 = .ok .hvOptions ∧
  ∀ s : State,
    (s.frame.vlen < 20 → exec .hvOptions s = .next (s.answer (.failed .frameTruncated))) ∧
    (∀ b0 : Byte, 20 ≤ s.frame.vlen → s.frame.viewByte 0 = .ok b0 →
      (b0.toNat % 16 < 5 →
        exec .hvOptions s = .next (s.answer (.failed .headerLengthInvalid))) ∧
      (5 ≤ b0.toNat % 16 → s.frame.vlen < b0.toNat % 16 * 4 →
        exec .hvOptions s = .next (s.answer (.failed .frameTruncated)))) ∧
    ∀ b0 : Byte, 20 ≤ s.frame.vlen → s.frame.viewByte 0 = .ok b0 → 5 ≤ b0.toNat % 16 →
      b0.toNat % 16 * 4 ≤ s.frame.vlen →
      exec .hvOptions s =
        .next (s.answer (.done 20 (BitVec.ofNat 32 ((b0.toNat % 16 - 5) * 4)) .zero))

/-- R137: `CS.COMPUTE`; `foldSumBytes` is `fold_sum` (R145), whose own rules are stated below. -/
def Obligations.CsComputeResult : Prop :=
  decode 0x2000 = .ok .csCompute ∧
  ∀ s : State,
    (s.frame.vlen < 20 → exec .csCompute s = .next (s.answer (.failed .frameTruncated))) ∧
    (∀ b0 : Byte, 20 ≤ s.frame.vlen → s.frame.viewByte 0 = .ok b0 →
      (b0.toNat % 16 < 5 →
        exec .csCompute s = .next (s.answer (.failed .headerLengthInvalid))) ∧
      (5 ≤ b0.toNat % 16 → s.frame.vlen < b0.toNat % 16 * 4 →
        exec .csCompute s = .next (s.answer (.failed .frameTruncated)))) ∧
    ∀ bytes : List Byte, s.frame.HasView bytes → bytes.length = octet bytes 0 % 16 * 4 →
      5 ≤ octet bytes 0 % 16 →
      let f := (foldSumBytes .compute bytes).toNat
      exec .csCompute s =
        .next (s.answer (.done (BitVec.ofNat 32 (0xFFFF - f)) (BitVec.ofNat 32 f) .zero)) ∧
      ∀ hi lo : Byte,
        foldSumBytes .compute ((bytes.set 10 hi).set 11 lo) = foldSumBytes .compute bytes

/-- R138: `CS.VERIFY`; `foldSumBytes` is `fold_sum` (R145), whose own rules are stated below. -/
def Obligations.CsVerifyResult : Prop :=
  decode 0x2100 = .ok .csVerify ∧
  ∀ s : State,
    (s.frame.vlen < 20 → exec .csVerify s = .next (s.answer (.failed .frameTruncated))) ∧
    (∀ b0 : Byte, 20 ≤ s.frame.vlen → s.frame.viewByte 0 = .ok b0 →
      (b0.toNat % 16 < 5 →
        exec .csVerify s = .next (s.answer (.failed .headerLengthInvalid))) ∧
      (5 ≤ b0.toNat % 16 → s.frame.vlen < b0.toNat % 16 * 4 →
        exec .csVerify s = .next (s.answer (.failed .frameTruncated)))) ∧
    ∀ bytes : List Byte, s.frame.HasView bytes → bytes.length = octet bytes 0 % 16 * 4 →
      5 ≤ octet bytes 0 % 16 →
      let f := (foldSumBytes .verify bytes).toNat
      exec .csVerify s =
        .next (s.answer (.done (BitVec.ofNat 32 (if f = 0xFFFF then 1 else 0)) (BitVec.ofNat 32 f) .zero))

/-- R140: `CS.COMPUTE.N n`. -/
def Obligations.CsComputeNResult : Prop :=
  (∀ n : Byte, n.toNat ≤ 40 →
    decode (BitVec.ofNat 16 (0x2200 + n.toNat)) = .ok (.csComputeN n)) ∧
  ∀ (n : Byte) (s : State),
    (40 < n.toNat → exec (.csComputeN n) s = .next (s.answer (.failed .illegalCommand))) ∧
    (n.toNat ≤ 40 → s.frame.vlen < 20 + n.toNat →
      exec (.csComputeN n) s = .next (s.answer (.failed .frameTruncated))) ∧
    ∀ bytes : List Byte, n.toNat ≤ 40 → s.frame.HasView bytes → bytes.length = 20 + n.toNat →
      let f := (foldSumBytes .compute bytes).toNat
      exec (.csComputeN n) s =
        .next (s.answer (.done (BitVec.ofNat 32 (0xFFFF - f)) (BitVec.ofNat 32 f) .zero))

/-- R141: `CS.VERIFY.N n`. -/
def Obligations.CsVerifyNResult : Prop :=
  (∀ n : Byte, n.toNat ≤ 40 →
    decode (BitVec.ofNat 16 (0x2300 + n.toNat)) = .ok (.csVerifyN n)) ∧
  ∀ (n : Byte) (s : State),
    (40 < n.toNat → exec (.csVerifyN n) s = .next (s.answer (.failed .illegalCommand))) ∧
    (n.toNat ≤ 40 → s.frame.vlen < 20 + n.toNat →
      exec (.csVerifyN n) s = .next (s.answer (.failed .frameTruncated))) ∧
    ∀ bytes : List Byte, n.toNat ≤ 40 → s.frame.HasView bytes → bytes.length = 20 + n.toNat →
      let f := (foldSumBytes .verify bytes).toNat
      exec (.csVerifyN n) s =
        .next (s.answer (.done (BitVec.ofNat 32 (if f = 0xFFFF then 1 else 0)) (BitVec.ofNat 32 f) .zero))

/-- R132: step 1 of the checksum. -/
def Obligations.ChecksumWordsArePadded : Prop :=
  ∀ bytes : List Byte,
    (wordsOf bytes).length = (bytes.length + 1) / 2 ∧
    ∀ j, 2 * j < bytes.length →
      ∃ w, (wordsOf bytes)[j]? = some w ∧
        (2 * j + 1 < bytes.length →
          w.toNat = octet bytes (2 * j) * 256 + octet bytes (2 * j + 1)) ∧
        (2 * j + 1 = bytes.length → w.toNat = octet bytes (2 * j) * 256)

/-- R133 and R134 (the bound is marked derived there): step 2 of the checksum cannot overflow. -/
def Obligations.AccumulatorIsExact : Prop :=
  ∀ (mode : SumMode) (bytes : List Byte), bytes.length ≤ 60 →
    (accumulate (maskField mode (wordsOf bytes))).toNat = wordTotal mode bytes ∧
    wordTotal mode bytes ≤ 0x1DFFE2

/-- R135 (the bound of two is marked derived there): step 3 of the checksum, as the while loop it is. -/
def Obligations.TwoFoldsAlwaysSuffice : Prop :=
  ∀ acc : Word,
    (foldOnce acc).toNat = acc.toNat / 65536 + acc.toNat % 65536 ∧
    (foldLoop 2 acc).toNat < 65536 ∧
    (∀ n, foldLoop (2 + n) acc = foldLoop 2 acc) ∧
    (acc.toNat < 65536 → (foldAcc acc).toNat = acc.toNat) ∧
    (65536 ≤ acc.toNat → foldAcc acc = foldAcc (foldOnce acc))

/-- The loop computation of R145 refines to the closed form of R135 (marked derived there). -/
def Obligations.FoldSumClosedForm : Prop :=
  ∀ (mode : SumMode) (bytes : List Byte), bytes.length ≤ 60 →
    (foldSumBytes mode bytes).toNat = endAround (wordTotal mode bytes)

/-- R144 (marked derived there): the relation between the two modes. -/
def Obligations.VerifyAcceptsTheComputedField : Prop :=
  ∀ bytes : List Byte, 20 ≤ bytes.length → bytes.length ≤ 60 →
    let s := (foldSumBytes .compute bytes).toNat
    let v := octet2 bytes 10
    foldSumBytes .verify bytes = 0xFFFF ↔ v = 0xFFFF - s ∨ (s = 0xFFFF ∧ v = 0xFFFF)

/-- The idempotence law of R143. -/
def Obligations.ComputedChecksumVerifies : Prop :=
  ∀ (s s' : State) (bytes : List Byte) (c : Half) (aux : Word),
    s.frame.HasView bytes →
    s'.frame.HasView ((bytes.set 10 (c.extractLsb' 8 8)).set 11 (c.extractLsb' 0 8)) →
    (bytes.length = octet bytes 0 % 16 * 4 → 5 ≤ octet bytes 0 % 16 →
      exec .csCompute s = .next (s.answer (.done (c.setWidth 32) aux .zero)) →
      ∃ aux', exec .csVerify s' = .next (s'.answer (.done 1 aux' .zero))) ∧
    (∀ n : Byte, n.toNat ≤ 40 → bytes.length = 20 + n.toNat →
      exec (.csComputeN n) s = .next (s.answer (.done (c.setWidth 32) aux .zero)) →
      ∃ aux', exec (.csVerifyN n) s' = .next (s'.answer (.done 1 aux' .zero)))

/-- The sensitivity law of R143. -/
def Obligations.BitFlipMakesVerifyFail : Prop :=
  ∀ (s s' : State) (bytes : List Byte) (k bit : Nat) (b : Byte) (aux : Word),
    s.frame.HasView bytes → bytes[k]? = some b → bit < 8 →
    s'.frame.HasView (bytes.set k (b ^^^ (1#8 <<< bit))) →
    (∀ n : Byte, n.toNat ≤ 40 → bytes.length = 20 + n.toNat →
      exec (.csVerifyN n) s = .next (s.answer (.done 1 aux .zero)) →
      ∃ aux', exec (.csVerifyN n) s' = .next (s'.answer (.done 0 aux' .zero))) ∧
    (bytes.length = octet bytes 0 % 16 * 4 → 5 ≤ octet bytes 0 % 16 → (k ≠ 0 ∨ 4 ≤ bit) →
      exec .csVerify s = .next (s.answer (.done 1 aux .zero)) →
      ∃ aux', exec .csVerify s' = .next (s'.answer (.done 0 aux' .zero)))

/-- The padding corner case of R140 (marked derived there). -/
def Obligations.OddLengthPadsWithZero : Prop :=
  ∀ (s s' : State) (n : Byte) (bytes : List Byte), n.toNat < 40 → n.toNat % 2 = 1 →
    bytes.length = 20 + n.toNat → s.frame.HasView bytes → s'.frame.HasView (bytes ++ [0]) →
    (∃ r, exec (.csComputeN n) s = .next (s.answer r) ∧
      exec (.csComputeN (n + 1)) s' = .next (s'.answer r)) ∧
    (∃ r, exec (.csVerifyN n) s = .next (s.answer r) ∧
      exec (.csVerifyN (n + 1)) s' = .next (s'.answer r))

/-- A corner case of R140 and R141: the two ways to give the length agree. -/
def Obligations.ExplicitLengthMatchesHeaderLength : Prop :=
  ∀ (s : State) (n : Byte) (bytes : List Byte), s.frame.HasView bytes →
    5 ≤ octet bytes 0 % 16 → bytes.length = octet bytes 0 % 16 * 4 →
    n.toNat = (octet bytes 0 % 16 - 5) * 4 →
    (∃ r, exec .csCompute s = .next (s.answer r) ∧ exec (.csComputeN n) s = .next (s.answer r)) ∧
    (∃ r, exec .csVerify s = .next (s.answer r) ∧ exec (.csVerifyN n) s = .next (s.answer r))

/-- R152: `PC.MAP imm`. -/
def Obligations.PcMapResult : Prop :=
  (∀ imm : Byte, decode (BitVec.ofNat 16 (0x3000 + imm.toNat)) = .ok (.pcMap imm)) ∧
  ∀ (imm : Byte) (s : State),
    exec (.pcMap imm) s =
      .next (s.answer (.done (BitVec.ofNat 32 (protocolKind imm.toNat * 256 + imm.toNat)) 0 .zero))

/-- R153: `PC.HDR`. -/
def Obligations.PcHdrResult : Prop :=
  decode 0x3100 = .ok .pcHdr ∧
  ∀ s : State,
    (s.frame.vlen < 20 → exec .pcHdr s = .next (s.answer (.failed .frameTruncated))) ∧
    ∀ b9 : Byte, 20 ≤ s.frame.vlen → s.frame.viewByte 9 = .ok b9 →
      exec .pcHdr s =
        .next (s.answer (.done (BitVec.ofNat 32 (protocolKind b9.toNat * 256 + b9.toNat)) 0 .zero))

/-- R150: the protocol table. -/
def Obligations.ProtocolTableIsTotalAndInjective : Prop :=
  classify 1 = .icmp ∧ classify 2 = .igmp ∧ classify 6 = .tcp ∧ classify 17 = .udp ∧
  ∀ n : Byte,
    (n ≠ 1 → n ≠ 2 → n ≠ 6 → n ≠ 17 → classify n = .unknown n) ∧ (classify n).number = n ∧
    ∀ m : Byte, classify n = classify m → n = m

/-- R161 to R163: `DEC.SUMMARY`. -/
def Obligations.DecSummaryResult : Prop :=
  decode 0x4000 = .ok .decSummary ∧
  ∀ s : State,
    (s.frame.flen.toNat < 4 →
      exec .decSummary s = .next (s.answer (.failed .frameTruncated))) ∧
    (∀ b2 b3 : Byte, 4 ≤ s.frame.flen.toNat → s.frame.readByte 2 = .ok b2 →
      s.frame.readByte 3 = .ok b3 →
      (b2.toNat * 256 + b3.toNat ≠ 0x0800 →
        exec .decSummary s = .next (s.answer
          (.notIPv4 (BitVec.ofNat 16 (b2.toNat * 256 + b3.toNat))))) ∧
      (b2.toNat * 256 + b3.toNat = 0x0800 →
        (s.frame.vlen < 20 → exec .decSummary s = .next (s.answer (.failed .frameTruncated))) ∧
        (∀ b0 : Byte, 20 ≤ s.frame.vlen → s.frame.viewByte 0 = .ok b0 →
          (b0.toNat % 16 < 5 →
            exec .decSummary s = .next (s.answer (.failed .headerLengthInvalid))) ∧
          (5 ≤ b0.toNat % 16 → s.frame.vlen < b0.toNat % 16 * 4 →
            exec .decSummary s = .next (s.answer (.failed .frameTruncated)))) ∧
        (∀ B : List Byte, s.frame.HasView B → B.length = octet B 0 % 16 * 4 →
          5 ≤ octet B 0 % 16 →
          (s.frame.vlen < octet2 B 2 →
            exec .decSummary s = .next (s.answer (.failed .frameTruncated))) ∧
          (octet2 B 2 ≤ s.frame.vlen →
            exec .decSummary s = .next (s.answer (.done
              (BitVec.ofNat 32
                ((if foldSumBytes .verify B = 0xFFFF then 1 else 0) +
                  (if octet B 0 / 16 = 4 then 2 else 0) +
                  (if octet B 6 / 128 = 0 then 4 else 0) +
                  (if octet B 0 % 16 * 4 ≤ octet2 B 2 then 8 else 0)))
              (BitVec.ofNat 32 (protocolKind (octet B 9) * 256 + octet B 9))
              { s0 := BitVec.ofNat 32 (octet B 0 / 16 * 2 ^ 28 + octet B 0 % 16 * 2 ^ 24 +
                  octet B 1 / 4 * 2 ^ 18 + octet B 1 % 4 * 2 ^ 16 + octet2 B 2)
                s1 := BitVec.ofNat 32 (octet2 B 4 * 2 ^ 16 + octet B 6 / 128 * 2 ^ 15 +
                  octet B 6 / 64 % 2 * 2 ^ 14 + octet B 6 / 32 % 2 * 2 ^ 13 +
                  (octet B 6 % 32 * 256 + octet B 7))
                s2 := BitVec.ofNat 32 (octet B 8 * 2 ^ 24 + octet B 9 * 2 ^ 16 + octet2 B 10)
                s3 := BitVec.ofNat 32 (octet4 B 12)
                s4 := BitVec.ofNat 32 (octet4 B 16)
                s5 := BitVec.ofNat 32 (20 * 256 + (octet B 0 % 16 - 5) * 4) }))))))

/-- R162 (marked derived there): the packing is the header's own layout. -/
def Obligations.SummaryWordsAreTheHeaderWords : Prop :=
  ∀ (s : State) (val aux : Word) (sum : SummaryWords),
    exec .decSummary s = .next (s.answer (.done val aux sum)) →
    s.frame.be32 0 = .ok sum.s0 ∧ s.frame.be32 4 = .ok sum.s1 ∧ s.frame.be32 8 = .ok sum.s2 ∧
    s.frame.be32 12 = .ok sum.s3 ∧ s.frame.be32 16 = .ok sum.s4 ∧ sum.s5.toNat / 256 = 20

/-- R164 (marked derived there): the eager decode and the single accessors agree. -/
def Obligations.SummaryAgreesWithTheAccessors : Prop :=
  ∀ s : State, s.frame.Loaded →
    ((∃ val aux sum, exec .decSummary s = .next (s.answer (.done val aux sum))) ↔
      exec .envClass s = .next (s.answer (.done 0x10800 0 .zero)) ∧
      (∃ off len, exec .hvOptions s = .next (s.answer (.done off len .zero))) ∧
      ∃ tl : Word, exec .hvTotlen s = .next (s.answer (.done tl 0 .zero)) ∧
        tl.toNat ≤ s.frame.vlen) ∧
    ∀ val aux sum, exec .decSummary s = .next (s.answer (.done val aux sum)) →
      let reads := fun (i : Instr) (v : Word) => exec i s = .next (s.answer (.done v 0 .zero))
      reads .hvVersion ((sum.s0.extractLsb' 28 4).setWidth 32) ∧
      reads .hvIhl ((sum.s0.extractLsb' 24 4).setWidth 32) ∧
      reads .hvDscp ((sum.s0.extractLsb' 18 6).setWidth 32) ∧
      reads .hvEcn ((sum.s0.extractLsb' 16 2).setWidth 32) ∧
      reads .hvTotlen ((sum.s0.extractLsb' 0 16).setWidth 32) ∧
      reads .hvIdent ((sum.s1.extractLsb' 16 16).setWidth 32) ∧
      reads .hvDf ((sum.s1.extractLsb' 14 1).setWidth 32) ∧
      reads .hvMf ((sum.s1.extractLsb' 13 1).setWidth 32) ∧
      reads .hvFragoff ((sum.s1.extractLsb' 0 13).setWidth 32) ∧
      reads .hvTtl ((sum.s2.extractLsb' 24 8).setWidth 32) ∧
      reads .hvProtonum ((sum.s2.extractLsb' 16 8).setWidth 32) ∧
      reads .hvCsumfld ((sum.s2.extractLsb' 0 16).setWidth 32) ∧
      reads .hvSrc sum.s3 ∧ reads .hvDst sum.s4 ∧
      exec .hvOptions s = .next (s.answer (.done ((sum.s5.extractLsb' 8 8).setWidth 32)
        ((sum.s5.extractLsb' 0 8).setWidth 32) .zero)) ∧
      (∃ folded, exec .csVerify s =
        .next (s.answer (.done ((val.extractLsb' 0 1).setWidth 32) folded .zero))) ∧
      reads .pcHdr aux

/-- R172: who raises `HeaderLengthInvalid`, and when. -/
def Obligations.HeaderLengthInvalidRaisers : Prop :=
  ∀ (i : Instr) (s : State),
    exec i s = .next (s.answer (.failed .headerLengthInvalid)) ↔
      20 ≤ s.frame.vlen ∧ (∃ b0 : Byte, s.frame.viewByte 0 = .ok b0 ∧ b0.toNat % 16 < 5) ∧
      (i = .hvIhl ∨ i = .hvOptions ∨ i = .csCompute ∨ i = .csVerify ∨
        (i = .decSummary ∧ s.frame.memRead16 2 = .ok 0x0800))

/-- Who answers `FrameTruncated`, and when: the cases of R173, of which (a), (c) and (d) are marked there
as the spec's own extension, in the order of the checks of R45, R161 and R177. -/
def Obligations.FrameTruncatedRaisers : Prop :=
  ∀ (i : Instr) (s : State),
    let viewOp := i = .hvOptions ∨ i = .csCompute ∨ i = .csVerify ∨
      (i = .decSummary ∧ s.frame.memRead16 2 = .ok 0x0800)
    exec i s = .next (s.answer (.failed .frameTruncated)) ↔
      ((i = .envClass ∨ i = .decSummary) ∧ s.frame.flen.toNat < 4) ∨
      ((viewOp ∨ i = .hvVersion ∨ i = .hvIhl ∨ i = .hvDscp ∨ i = .hvEcn ∨ i = .hvTotlen ∨
        i = .hvIdent ∨ i = .hvDf ∨ i = .hvMf ∨ i = .hvFragoff ∨ i = .hvTtl ∨ i = .hvProtonum ∨
        i = .hvCsumfld ∨ i = .hvSrc ∨ i = .hvDst ∨ i = .pcHdr) ∧ s.frame.vlen < 20) ∨
      (viewOp ∧ 20 ≤ s.frame.vlen ∧ ∃ b0 : Byte, s.frame.viewByte 0 = .ok b0 ∧
        5 ≤ b0.toNat % 16 ∧ s.frame.vlen < b0.toNat % 16 * 4) ∨
      (∃ n : Byte, (i = .csComputeN n ∨ i = .csVerifyN n) ∧ n.toNat ≤ 40 ∧
        s.frame.vlen < 20 + n.toNat) ∨
      (i = .decSummary ∧ s.frame.memRead16 2 = .ok 0x0800 ∧
        ∃ b0 b2 b3 : Byte, s.frame.viewByte 0 = .ok b0 ∧ s.frame.viewByte 2 = .ok b2 ∧
          s.frame.viewByte 3 = .ok b3 ∧ 5 ≤ b0.toNat % 16 ∧ b0.toNat % 16 * 4 ≤ s.frame.vlen ∧
          s.frame.vlen < b2.toNat * 256 + b3.toNat)

/-- Who answers `NotIPv4` (R175; R161 line 3); and the `IllegalCommand` of R140, R141 and R45, for the
terms that no word decodes to by log entry 8 (DEDUCED). -/
def Obligations.NotIPv4AndIllegalCommandRaisers : Prop :=
  ∀ (i : Instr) (s : State),
    (∀ id : Half, exec i s = .next (s.answer (.notIPv4 id)) ↔
      i = .decSummary ∧ s.frame.memRead16 2 = .ok id ∧ id ≠ 0x0800) ∧
    (exec i s = .next (s.answer (.failed .illegalCommand)) ↔ i.wf = false)

/-- R170: the status codes and what the record holds with each. -/
def Obligations.StatusCodesOfTheRecord : Prop :=
  (∀ (val aux : Word) (sum : SummaryWords), (Response.done val aux sum).rsp = ⟨0, val, aux, sum⟩) ∧
  (Response.failed .headerLengthInvalid).rsp = ⟨1, 0, 0, .zero⟩ ∧
  (Response.failed .frameTruncated).rsp = ⟨2, 0, 0, .zero⟩ ∧
  (Response.failed .illegalCommand).rsp = ⟨3, 0, 0, .zero⟩ ∧
  (∀ id : Half, (Response.notIPv4 id).rsp = ⟨4, BitVec.ofNat 32 id.toNat, 0, .zero⟩) ∧
  ∀ r : Response, r.rsp.status.toNat ≤ 4

/-- R69, R25: the layouts of `VAL`, `AUX` and `SUM`; unlisted bits are 0. -/
def Obligations.ResultsStayInTheirFields : Prop :=
  ∀ (i : Instr) (s : State) (val aux : Word) (sum : SummaryWords),
    exec i s = .next (s.answer (.done val aux sum)) →
    (i ≠ .decSummary → sum = .zero) ∧
    match i with
    | .envClass => val.toNat < 2 ^ 17 ∧ aux = 0
    | .hvVersion => val.toNat < 2 ^ 4 ∧ aux = 0
    | .hvIhl => 5 ≤ val.toNat ∧ val.toNat < 2 ^ 4 ∧ aux = 0
    | .hvDscp => val.toNat < 2 ^ 6 ∧ aux = 0
    | .hvEcn => val.toNat < 2 ^ 2 ∧ aux = 0
    | .hvTotlen | .hvIdent | .hvCsumfld => val.toNat < 2 ^ 16 ∧ aux = 0
    | .hvDf | .hvMf => val.toNat < 2 ∧ aux = 0
    | .hvFragoff => val.toNat < 2 ^ 13 ∧ aux = 0
    | .hvTtl | .hvProtonum => val.toNat < 2 ^ 8 ∧ aux = 0
    | .hvSrc | .hvDst => aux = 0
    | .hvOptions => val = 20 ∧ aux.toNat ≤ 40 ∧ aux.toNat % 4 = 0
    | .csCompute | .csComputeN _ =>
      val.toNat < 2 ^ 16 ∧ aux.toNat < 2 ^ 16 ∧ val.toNat + aux.toNat = 0xFFFF
    | .csVerify | .csVerifyN _ => val.toNat < 2 ∧ aux.toNat < 2 ^ 16
    | .pcMap _ | .pcHdr => val.toNat < 5 * 2 ^ 8 ∧ aux = 0
    | .decSummary => val.toNat < 2 ^ 4 ∧ aux.toNat < 5 * 2 ^ 8

/-- R46: no byte outside the footprint reaches a response, and no footprint reaches offset 64. -/
def Obligations.ResponseDependsOnlyOnTheFootprint : Prop :=
  ∀ (i : Instr) (s s' : State),
    (s.frame.flen = s'.frame.flen →
      (∀ a ∈ footprint i s.frame, s.frame.readByte a = s'.frame.readByte a) →
      ∀ r, exec i s = .next (s.answer r) → exec i s' = .next (s'.answer r)) ∧
    (i.wf = true → ∀ a ∈ footprint i s.frame, a < 64)

/-- R83: the envelope flags are not an output of any operation. -/
def Obligations.EnvelopeFlagsAreUnobservable : Prop :=
  ∀ (i : Instr) (s s' : State), s.frame.Loaded → s'.frame.Loaded →
    s.frame.flen = s'.frame.flen →
    (∀ a, 2 ≤ a → s.frame.readByte a = s'.frame.readByte a) →
    ∃ r, exec i s = .next (s.answer r) ∧ exec i s' = .next (s'.answer r)

/-- R110, R197: independence of call order. -/
def Obligations.ResponsesDoNotDependOnOrder : Prop :=
  ∀ (i j : Instr) (s si sj : State), exec i s = .next si → exec j s = .next sj →
    ∃ ri rj, si = s.answer ri ∧ sj = s.answer rj ∧
      exec j si = .next (si.answer rj) ∧ exec i sj = .next (sj.answer ri)

/-- R17 (marked derived there): the response sequence is the pointwise image of the command sequence. -/
def Obligations.RunOfCommandsIsPointwise : Prop :=
  ∀ (s : State) (ws : List Half), s.frame.Loaded → s.inbox = ws.map .issue →
    ∃ rs : List Response, rs.length = ws.length ∧
      Host.Core.run Sys2Proof.core ws.length s =
        .next { frame := s.frame, inbox := [], out := rs.reverse ++ s.out } ∧
      ∀ (k : Nat) (w : Half) (r : Response), ws[k]? = some w → rs[k]? = some r →
        ∀ out, step { frame := s.frame, inbox := [.issue w], out := out } =
          .next { frame := s.frame, inbox := [], out := r :: out }

/-- R194, R199: every operation ends, and what a run leaves. -/
def Obligations.RunTakesEveryMove : Prop :=
  ∀ s : State, s.frame.Loaded → (∀ m ∈ s.inbox, m.fits = true) →
    ∃ rs : List Response, rs.length = s.inbox.countP (·.isIssue) ∧
      Host.Core.run Sys2Proof.core s.inbox.length s =
        .next { frame := lastFrame s.frame s.inbox, inbox := [], out := rs ++ s.out }
end

