-- ==== Sys2Proof/Laws/Memory.lean ====
section
/-! SUPPORT. The memory laws: what a read of a loaded buffer gives, and that every memory operation keeps
the canonical form. Reads change nothing; the one operation that makes a memory is `Memory.ofBytes`. -/

namespace Sys2Proof.Machine

theorem fbSize_ge : 64 ≤ Config.fbSize := by unfold Config.fbSize; omega

@[simp] theorem Memory.read_nil (a : Nat) : Memory.read [] a = none := rfl

/-- Read over a whole buffer: offset `base + i` holds byte `i`, every other offset nothing. -/
theorem Memory.read_ofBytes (bytes : List Byte) (base a : Nat) :
    Memory.read (Memory.ofBytes base bytes) a =
      if base ≤ a then bytes[a - base]? else none := by
  induction bytes generalizing base with
  | nil => simp [Memory.ofBytes]
  | cons b rest ih =>
    simp only [Memory.ofBytes, Memory.read, ih]
    rcases Nat.lt_trichotomy base a with h | h | h
    · have h' : a - base = (a - (base + 1)) + 1 := by omega
      simp [h.ne, h.le, Nat.succ_le_of_lt h, h']
    · simp [h]
    · have h1 : ¬ base ≤ a := by omega
      have h2 : ¬ base + 1 ≤ a := by omega
      simp [h.ne', h1, h2]

theorem Memory.risingFrom_mono {m : Memory} {low low' : Nat} (h : Memory.risingFrom low m = true)
    (hle : low' ≤ low) : Memory.risingFrom low' m = true := by
  cases m with
  | nil => rfl
  | cons c rest =>
    simp only [Memory.risingFrom, Bool.and_eq_true, decide_eq_true_eq] at h ⊢
    exact ⟨hle.trans h.1, h.2⟩

theorem Memory.risingFrom_ofBytes (bytes : List Byte) (base : Nat) :
    Memory.risingFrom base (Memory.ofBytes base bytes) = true := by
  induction bytes generalizing base with
  | nil => rfl
  | cons b rest ih => simp [Memory.ofBytes, Memory.risingFrom, ih]

/-- The memory a `LOAD` makes is canonical. -/
theorem Memory.wf_ofBytes (base : Nat) (bytes : List Byte) :
    Memory.wf (Memory.ofBytes base bytes) = true :=
  Memory.risingFrom_mono (Memory.risingFrom_ofBytes bytes base) (Nat.zero_le base)

/-- Reset memory is canonical. -/
theorem Memory.wf_reset : Memory.wf State.reset.frame.fb = true := rfl

@[simp] theorem Frame.ofBytes_flen {bytes : List Byte} (h : bytes.length < 2 ^ 32) :
    (Frame.ofBytes bytes).flen.toNat = bytes.length := by
  simpa [Frame.ofBytes] using h

/-- Every listed byte of the buffer a `LOAD` leaves. -/
theorem Frame.ofBytes_read (bytes : List Byte) (a : Nat) :
    Memory.read (Frame.ofBytes bytes).fb a = if a < Config.fbSize then bytes[a]? else none := by
  simp [Frame.ofBytes, Memory.read_ofBytes, List.getElem?_take]

/-- The frame a `LOAD` leaves is loaded. -/
theorem Frame.ofBytes_loaded {bytes : List Byte} (h : bytes.length < 2 ^ 32) :
    (Frame.ofBytes bytes).Loaded where
  canonical := Memory.wf_ofBytes 0 _
  inside a b hb := by
    rw [Frame.ofBytes_read] at hb
    split at hb
    · rw [Frame.ofBytes_flen h]
      exact ⟨(List.getElem?_eq_some_iff.mp hb).1, ‹_›⟩
    · cases hb
  present a ha hs := by
    rw [Frame.ofBytes_flen h] at ha
    exact ⟨bytes[a], by rw [Frame.ofBytes_read, if_pos hs, List.getElem?_eq_getElem ha]⟩

end Sys2Proof.Machine
end

