-- ==== Sys2Proof/Laws/Read.lean ====
section
/-! SUPPORT. The frame's reads, one lemma per shared operation: what a read answers, and when it answers
at all. -/

namespace Sys2Proof.Machine

@[simp] theorem except_ok_bind {ε α β : Type} (a : α) (k : α → Except ε β) :
    (Except.ok a >>= k) = k a := rfl

@[simp] theorem except_error_bind {ε α β : Type} (e : ε) (k : α → Except ε β) :
    (Except.error e >>= k) = Except.error e := rfl

/-- A composed read that answers took a first read that answers, and went on with it. -/
theorem except_bind_ok {ε α β : Type} {x : Except ε α} {k : α → Except ε β} {b : β}
    (h : x >>= k = .ok b) : ∃ a, x = .ok a ∧ k a = .ok b := by
  cases x with
  | error e => cases h
  | ok a => exact ⟨a, rfl, h⟩

/-- A byte read answers exactly the byte listed, below `FLEN`. -/
theorem Frame.readByte_ok {f : Frame} {a : Nat} {b : Byte} :
    f.readByte a = .ok b ↔ a < f.flen.toNat ∧ Memory.read f.fb a = some b := by
  unfold Frame.readByte
  split
  · split <;> simp_all
  · simp_all

/-- A byte read that does not answer names its own offset. -/
theorem Frame.readByte_error {f : Frame} {a : Nat} {e : Fault} (h : f.readByte a = .error e) :
    e = .unspecifiedFrameByte a := by
  unfold Frame.readByte at h
  split at h
  · split at h <;> simp_all
  · simp_all

/-- On a loaded frame every offset below `FLEN` and `FB_SIZE` reads. -/
theorem Frame.Loaded.readByte {f : Frame} (h : f.Loaded) {a : Nat} (ha : a < f.flen.toNat)
    (hs : a < Config.fbSize) : ∃ b, f.readByte a = .ok b :=
  let ⟨b, hb⟩ := h.present a ha hs
  ⟨b, Frame.readByte_ok.mpr ⟨ha, hb⟩⟩

theorem Frame.vlen_eq (f : Frame) : f.vlen = f.flen.toNat - 4 := rfl

/-- On a loaded frame every view octet below `VLEN` and below 60 reads. -/
theorem Frame.Loaded.viewByte {f : Frame} (h : f.Loaded) {k : Nat} (hk : k < f.vlen) (h60 : k < 60) :
    ∃ b, f.viewByte k = .ok b := by
  have := fbSize_ge
  rw [Frame.vlen_eq] at hk
  exact h.readByte (by simp only [Config.envelopeLen]; omega)
    (by simp only [Config.envelopeLen]; omega)

/-- A view octet that reads stands below `VLEN`. -/
theorem Frame.lt_vlen_of_viewByte {f : Frame} {k : Nat} {b : Byte} (h : f.viewByte k = .ok b) :
    k < f.vlen := by
  have := (Frame.readByte_ok.mp h).1
  simp only [Config.envelopeLen] at this
  rw [Frame.vlen_eq]
  omega

theorem Frame.memRead16_of {f : Frame} {a : Nat} {b0 b1 : Byte} (h0 : f.readByte a = .ok b0)
    (h1 : f.readByte (a + 1) = .ok b1) : f.memRead16 a = .ok (b0 ++ b1) := by
  simp [Frame.memRead16, h0, h1]

theorem Frame.memRead16_ok {f : Frame} {a : Nat} {v : Half} (h : f.memRead16 a = .ok v) :
    ∃ b0 b1, f.readByte a = .ok b0 ∧ f.readByte (a + 1) = .ok b1 ∧ v = b0 ++ b1 := by
  obtain ⟨b0, h0, h⟩ := except_bind_ok h
  obtain ⟨b1, h1, h⟩ := except_bind_ok h
  cases h
  exact ⟨b0, b1, h0, h1, rfl⟩

theorem Frame.memRead32_of {f : Frame} {a : Nat} {b0 b1 b2 b3 : Byte} (h0 : f.readByte a = .ok b0)
    (h1 : f.readByte (a + 1) = .ok b1) (h2 : f.readByte (a + 2) = .ok b2)
    (h3 : f.readByte (a + 3) = .ok b3) : f.memRead32 a = .ok (b0 ++ b1 ++ b2 ++ b3) := by
  simp [Frame.memRead32, h0, h1, h2, h3]

theorem Frame.memRead32_ok {f : Frame} {a : Nat} {v : Word} (h : f.memRead32 a = .ok v) :
    ∃ b0 b1 b2 b3, f.readByte a = .ok b0 ∧ f.readByte (a + 1) = .ok b1 ∧
      f.readByte (a + 2) = .ok b2 ∧ f.readByte (a + 3) = .ok b3 ∧ v = b0 ++ b1 ++ b2 ++ b3 := by
  obtain ⟨b0, h0, h⟩ := except_bind_ok h
  obtain ⟨b1, h1, h⟩ := except_bind_ok h
  obtain ⟨b2, h2, h⟩ := except_bind_ok h
  obtain ⟨b3, h3, h⟩ := except_bind_ok h
  cases h
  exact ⟨b0, b1, b2, b3, h0, h1, h2, h3, rfl⟩

/-- Reading `n` bytes answers the list of the bytes that stand there. -/
theorem Frame.readBytes_ok {f : Frame} {a n : Nat} {bytes : List Byte} :
    f.readBytes a n = .ok bytes ↔
      bytes.length = n ∧ ∀ k (h : k < bytes.length), f.readByte (a + k) = .ok bytes[k] := by
  induction n generalizing a bytes with
  | zero =>
    constructor
    · intro h; cases h; simp
    · rintro ⟨h, -⟩; rw [List.length_eq_zero_iff.mp h]; rfl
  | succ n ih =>
    constructor
    · intro h
      obtain ⟨b, hb, h⟩ := except_bind_ok h
      obtain ⟨rest, hr, h⟩ := except_bind_ok h
      cases h
      obtain ⟨hl, hk⟩ := ih.mp hr
      refine ⟨by simp [hl], fun k h => ?_⟩
      cases k with
      | zero => simpa using hb
      | succ k => simpa [Nat.add_assoc, Nat.add_comm 1] using hk k (by simpa using h)
    · rintro ⟨hl, hk⟩
      cases bytes with
      | nil => simp at hl
      | cons b rest =>
        have hb := hk 0 (by simp)
        have hr : f.readBytes (a + 1) n = .ok rest :=
          ih.mpr ⟨by simpa using hl, fun k h => by
            have := hk (k + 1) (by simpa using h)
            rw [List.getElem_cons_succ] at this
            rw [← this, Nat.add_assoc, Nat.add_comm 1]⟩
        simp only [Nat.add_zero, List.getElem_cons_zero] at hb
        simp [Frame.readBytes, hb, hr]

/-- Reading `n` view bytes answers exactly the view's first `n` bytes. -/
theorem Frame.viewBytes_ok {f : Frame} {n : Nat} {bytes : List Byte} :
    f.viewBytes n = .ok bytes ↔ bytes.length = n ∧ f.HasView bytes :=
  Frame.readBytes_ok

theorem Frame.HasView.le_vlen {f : Frame} {bytes : List Byte} (h : f.HasView bytes) :
    bytes.length ≤ f.vlen := by
  rcases Nat.eq_zero_or_pos bytes.length with h0 | h0
  · omega
  · have := Frame.lt_vlen_of_viewByte (h (bytes.length - 1) (by omega))
    omega

/-- Octet `k` of a view, as the machine reads it. -/
theorem Frame.HasView.byte {f : Frame} {bytes : List Byte} (h : f.HasView bytes) {k : Nat}
    (hk : k < bytes.length) : f.viewByte k = .ok (bytes.getD k 0) := by
  rw [h k hk, List.getD_eq_getElem?_getD, List.getElem?_eq_getElem hk, Option.getD_some]

/-- A loaded frame has a view of every length up to 60 that fits. -/
theorem Frame.Loaded.hasView {f : Frame} (h : f.Loaded) {n : Nat} (hn : n ≤ f.vlen) (h60 : n ≤ 60) :
    ∃ bytes : List Byte, bytes.length = n ∧ f.HasView bytes := by
  induction n with
  | zero => exact ⟨[], rfl, fun k hk => absurd hk (by simp)⟩
  | succ n ih =>
    obtain ⟨bytes, hl, hv⟩ := ih (by omega) (by omega)
    obtain ⟨b, hb⟩ := h.viewByte (k := n) (by omega) (by omega)
    refine ⟨bytes ++ [b], by simp [hl], fun k hk => ?_⟩
    rcases Nat.lt_or_ge k bytes.length with hlt | hge
    · rw [List.getElem_append_left hlt]; exact hv k hlt
    · have : k = n := by simp at hk; omega
      subst this
      simpa [← hl] using hb

/-- A shorter view of the same frame. -/
theorem Frame.HasView.take {f : Frame} {bytes : List Byte} (h : f.HasView bytes) (n : Nat) :
    f.HasView (bytes.take n) := by
  intro k hk
  rw [List.getElem_take]
  exact h k (by simp at hk; omega)

/-- The view of a `LOAD` is what follows the four envelope bytes. -/
theorem Frame.ofBytes_hasView {envelope view : List Byte} (he : envelope.length = 4)
    (hv : view.length ≤ 60) : (Frame.ofBytes (envelope ++ view)).HasView view := by
  intro k hk
  have hl : (envelope ++ view).length < 2 ^ 32 := by simp; omega
  have := fbSize_ge
  rw [Frame.viewByte, Frame.readByte_ok, Frame.ofBytes_flen hl, Frame.ofBytes_read]
  simp only [Config.envelopeLen]
  rw [if_pos (by omega), List.getElem?_append_right (by omega), he, Nat.add_sub_cancel_left]
  exact ⟨by simp; omega, List.getElem?_eq_getElem hk⟩

end Sys2Proof.Machine
end

