-- ==== Sys2Proof/Laws/State.lean ====
section
/-! SUPPORT. One lemma per field of the state for each update of it, and what the updates do to each
other. -/

namespace Sys2Proof.Machine

@[simp] theorem State.answer_frame (s : State) (r : Response) : (s.answer r).frame = s.frame := rfl
@[simp] theorem State.answer_inbox (s : State) (r : Response) : (s.answer r).inbox = s.inbox := rfl
@[simp] theorem State.answer_out (s : State) (r : Response) : (s.answer r).out = r :: s.out := rfl
@[simp] theorem State.answer_rsp (s : State) (r : Response) : (s.answer r).rsp = some r.rsp := rfl

@[simp] theorem State.withInbox_frame (s : State) (ms : List HostMove) :
    (s.withInbox ms).frame = s.frame := rfl
@[simp] theorem State.withInbox_inbox (s : State) (ms : List HostMove) :
    (s.withInbox ms).inbox = ms := rfl
@[simp] theorem State.withInbox_out (s : State) (ms : List HostMove) :
    (s.withInbox ms).out = s.out := rfl

@[simp] theorem State.withFrame_frame (s : State) (f : Frame) : (s.withFrame f).frame = f := rfl
@[simp] theorem State.withFrame_inbox (s : State) (f : Frame) :
    (s.withFrame f).inbox = s.inbox := rfl
@[simp] theorem State.withFrame_out (s : State) (f : Frame) : (s.withFrame f).out = s.out := rfl

@[simp] theorem State.issueNext_frame (s : State) (w : Half) : (s.issueNext w).frame = s.frame := rfl
@[simp] theorem State.issueNext_inbox (s : State) (w : Half) :
    (s.issueNext w).inbox = .issue w :: s.inbox := rfl
@[simp] theorem State.issueNext_out (s : State) (w : Half) : (s.issueNext w).out = s.out := rfl

/-- Taking the move that `issueNext` placed gives the state back. -/
@[simp] theorem State.issueNext_withInbox (s : State) (w : Half) :
    (s.issueNext w).withInbox s.inbox = s := rfl

/-- A state that answers determines the response. -/
@[simp] theorem State.answer_inj (s : State) (r r' : Response) :
    s.answer r = s.answer r' ↔ r = r' :=
  ⟨fun h => by simpa using congrArg (fun t => t.out.head?) h, fun h => h ▸ rfl⟩

end Sys2Proof.Machine
end

