-- ==== Sys2Proof/Laws/Ops.lean ====
section
/-! SUPPORT. The shared checks and the shape of every operation: one equation per check for each way it
goes, and one inversion lemma for `execOn`. -/

namespace Sys2Proof.Machine

/-- What running an operation can do: answer its response, or fault with its read's fault. -/
theorem execOn_next {op : Frame → Except Fault Response} {s t : State} :
    execOn op s = .next t ↔ ∃ r, op s.frame = .ok r ∧ t = s.answer r := by
  unfold execOn
  cases h : op s.frame with
  | error e => simp
  | ok r =>
    constructor
    · intro h; cases h; exact ⟨r, rfl, rfl⟩
    · rintro ⟨_, h, rfl⟩; cases h; rfl

theorem execOn_of_ok {op : Frame → Except Fault Response} {s : State} {r : Response}
    (h : op s.frame = .ok r) : execOn op s = .next (s.answer r) := execOn_next.mpr ⟨r, h, rfl⟩

/-- An operation answers `r` exactly when its function of the frame gives `r`. -/
theorem execOn_answer {op : Frame → Except Fault Response} {s : State} {r : Response} :
    execOn op s = .next (s.answer r) ↔ op s.frame = .ok r := by
  rw [execOn_next]
  exact ⟨fun ⟨r', h, e⟩ => by rw [(State.answer_inj s r r').mp e]; exact h, fun h => ⟨r, h, rfl⟩⟩

theorem execOn_not_refused {op : Frame → Except Fault Response} {s : State} {r : Refusal} :
    execOn op s ≠ .refused r := by
  unfold execOn
  cases op s.frame <;> simp

@[simp] theorem withEnvelope_short {f : Frame} {k : Except Fault Response}
    (h : f.flen.toNat < 4) : withEnvelope f k = raise .frameTruncated := if_pos h

@[simp] theorem withEnvelope_long {f : Frame} {k : Except Fault Response}
    (h : 4 ≤ f.flen.toNat) : withEnvelope f k = k := if_neg (by simpa using h)

@[simp] theorem withViewOf_short {f : Frame} {n : Nat} {k : Except Fault Response}
    (h : f.vlen < n) : withViewOf n f k = raise .frameTruncated := if_pos h

@[simp] theorem withViewOf_long {f : Frame} {n : Nat} {k : Except Fault Response}
    (h : n ≤ f.vlen) : withViewOf n f k = k := if_neg (by omega)

@[simp] theorem withView_short {f : Frame} {k : Except Fault Response}
    (h : f.vlen < 20) : withView f k = raise .frameTruncated := if_pos h

@[simp] theorem withView_long {f : Frame} {k : Except Fault Response}
    (h : 20 ≤ f.vlen) : withView f k = k := if_neg (by simpa using h)

theorem Frame.ihl_of {f : Frame} {b0 : Byte} (h : f.viewByte 0 = .ok b0) :
    f.ihl = .ok (ihlBits b0) := by simp [Frame.ihl, h]

@[simp] theorem ihlBits_toNat (b0 : Byte) : (ihlBits b0).toNat = b0.toNat % 16 := by
  simp [ihlBits, BitVec.extractLsb'_toNat]

@[simp] theorem headerBytes_ihlBits (b0 : Byte) : headerBytes (ihlBits b0) = b0.toNat % 16 * 4 := by
  simp [headerBytes]

theorem withIhl_short {f : Frame} {k : BitVec 4 → Except Fault Response}
    (h : f.vlen < 20) : withIhl f k = raise .frameTruncated := withView_short h

theorem withIhl_invalid {f : Frame} {k : BitVec 4 → Except Fault Response} {b0 : Byte}
    (h : 20 ≤ f.vlen) (h0 : f.viewByte 0 = .ok b0) (h5 : b0.toNat % 16 < 5) :
    withIhl f k = raise .headerLengthInvalid := by
  simp [withIhl, h, Frame.ihl_of h0, h5]

theorem withIhl_valid {f : Frame} {k : BitVec 4 → Except Fault Response} {b0 : Byte}
    (h : 20 ≤ f.vlen) (h0 : f.viewByte 0 = .ok b0) (h5 : 5 ≤ b0.toNat % 16) :
    withIhl f k = k (ihlBits b0) := by
  simp [withIhl, h, Frame.ihl_of h0, Nat.not_lt.mpr h5]

theorem withHeader_short {f : Frame} {k : BitVec 4 → Except Fault Response}
    (h : f.vlen < 20) : withHeader f k = raise .frameTruncated := withIhl_short h

theorem withHeader_invalid {f : Frame} {k : BitVec 4 → Except Fault Response} {b0 : Byte}
    (h : 20 ≤ f.vlen) (h0 : f.viewByte 0 = .ok b0) (h5 : b0.toNat % 16 < 5) :
    withHeader f k = raise .headerLengthInvalid := withIhl_invalid h h0 h5

theorem withHeader_truncated {f : Frame} {k : BitVec 4 → Except Fault Response} {b0 : Byte}
    (h : 20 ≤ f.vlen) (h0 : f.viewByte 0 = .ok b0) (h5 : 5 ≤ b0.toNat % 16)
    (hl : f.vlen < b0.toNat % 16 * 4) : withHeader f k = raise .frameTruncated := by
  simp [withHeader, withIhl_valid h h0 h5, hl]

theorem withHeader_valid {f : Frame} {k : BitVec 4 → Except Fault Response} {b0 : Byte}
    (h0 : f.viewByte 0 = .ok b0) (h5 : 5 ≤ b0.toNat % 16)
    (hl : b0.toNat % 16 * 4 ≤ f.vlen) : withHeader f k = k (ihlBits b0) := by
  simp [withHeader, withIhl_valid (by omega) h0 h5, Nat.not_lt.mpr hl]

/-- Everything the header check can do: truncated, invalid, or go on with a nibble it read. -/
theorem withHeader_cases (f : Frame) (k : BitVec 4 → Except Fault Response) :
    (f.vlen < 20 ∧ withHeader f k = raise .frameTruncated) ∨
    (20 ≤ f.vlen ∧ ∃ e, f.viewByte 0 = .error e ∧ withHeader f k = .error e) ∨
    ∃ b0, 20 ≤ f.vlen ∧ f.viewByte 0 = .ok b0 ∧
      ((b0.toNat % 16 < 5 ∧ withHeader f k = raise .headerLengthInvalid) ∨
       (5 ≤ b0.toNat % 16 ∧ f.vlen < b0.toNat % 16 * 4 ∧ withHeader f k = raise .frameTruncated) ∨
       (5 ≤ b0.toNat % 16 ∧ b0.toNat % 16 * 4 ≤ f.vlen ∧ withHeader f k = k (ihlBits b0))) := by
  rcases Nat.lt_or_ge f.vlen 20 with h | h
  · exact .inl ⟨h, withHeader_short h⟩
  refine .inr ?_
  cases h0 : f.viewByte 0 with
  | error e => exact .inl ⟨h, e, rfl, by simp [withHeader, withIhl, h, Frame.ihl, h0]⟩
  | ok b0 =>
    refine .inr ⟨b0, h, rfl, ?_⟩
    rcases Nat.lt_or_ge (b0.toNat % 16) 5 with h5 | h5
    · exact .inl ⟨h5, withHeader_invalid h h0 h5⟩
    rcases Nat.lt_or_ge f.vlen (b0.toNat % 16 * 4) with hl | hl
    · exact .inr (.inl ⟨h5, hl, withHeader_truncated h h0 h5 hl⟩)
    · exact .inr (.inr ⟨h5, hl, withHeader_valid h0 h5 hl⟩)

theorem scalar_short {n : Nat} {field : Frame → Except Fault (BitVec n)} {f : Frame}
    (h : f.vlen < 20) : scalar field f = raise .frameTruncated := withView_short h

theorem scalar_of {n : Nat} {field : Frame → Except Fault (BitVec n)} {f : Frame} {v : BitVec n}
    (h : 20 ≤ f.vlen) (hv : field f = .ok v) : scalar field f = respond (v.setWidth 32) 0 := by
  simp [scalar, h, hv]

theorem withOptionsLen_illegal {n : Byte} {f : Frame} {k : Nat → Except Fault Response}
    (h : 40 < n.toNat) : withOptionsLen n f k = raise .illegalCommand :=
  if_neg (by simpa using h)

theorem withOptionsLen_short {n : Byte} {f : Frame} {k : Nat → Except Fault Response}
    (h : n.toNat ≤ 40) (hv : f.vlen < 20 + n.toNat) :
    withOptionsLen n f k = raise .frameTruncated := by
  simp [withOptionsLen, h, hv]

theorem withOptionsLen_long {n : Byte} {f : Frame} {k : Nat → Except Fault Response}
    (h : n.toNat ≤ 40) (hv : 20 + n.toNat ≤ f.vlen) :
    withOptionsLen n f k = k (20 + n.toNat) := by
  simp [withOptionsLen, h, hv]

/-! ## What a result tells: every check passed -/

theorem withView_done {f : Frame} {k : Except Fault Response} {val aux : Word} {sum : SummaryWords}
    (h : withView f k = .ok (.done val aux sum)) : 20 ≤ f.vlen ∧ k = .ok (.done val aux sum) := by
  rcases Nat.lt_or_ge f.vlen 20 with h20 | h20
  · rw [withView_short h20] at h; cases h
  · rw [withView_long h20] at h; exact ⟨h20, h⟩

theorem scalar_done {n : Nat} {field : Frame → Except Fault (BitVec n)} {f : Frame}
    {val aux : Word} {sum : SummaryWords} (h : scalar field f = .ok (.done val aux sum)) :
    20 ≤ f.vlen ∧ ∃ v, field f = .ok v ∧ val = v.setWidth 32 ∧ aux = 0 ∧ sum = .zero := by
  obtain ⟨h20, h⟩ := withView_done h
  obtain ⟨v, hv, h⟩ := except_bind_ok h
  cases h
  exact ⟨h20, v, hv, rfl, rfl, rfl⟩

theorem withHeader_done {f : Frame} {k : BitVec 4 → Except Fault Response} {val aux : Word}
    {sum : SummaryWords} (h : withHeader f k = .ok (.done val aux sum)) :
    20 ≤ f.vlen ∧ ∃ b0, f.viewByte 0 = .ok b0 ∧ 5 ≤ b0.toNat % 16 ∧ b0.toNat % 16 * 4 ≤ f.vlen ∧
      k (ihlBits b0) = .ok (.done val aux sum) := by
  rcases withHeader_cases f k with ⟨-, e⟩ | ⟨-, _, -, e⟩ | ⟨b0, h20, hb, e⟩
  · rw [e] at h; cases h
  · rw [e] at h; cases h
  · rcases e with ⟨-, e⟩ | ⟨-, -, e⟩ | ⟨h5, hl, e⟩
    · rw [e] at h; cases h
    · rw [e] at h; cases h
    · exact ⟨h20, b0, hb, h5, hl, e ▸ h⟩

theorem withOptionsLen_done {n : Byte} {f : Frame} {k : Nat → Except Fault Response}
    {val aux : Word} {sum : SummaryWords} (h : withOptionsLen n f k = .ok (.done val aux sum)) :
    n.toNat ≤ 40 ∧ 20 + n.toNat ≤ f.vlen ∧ k (20 + n.toNat) = .ok (.done val aux sum) := by
  rcases Nat.lt_or_ge 40 n.toNat with h40 | h40
  · rw [withOptionsLen_illegal h40] at h; cases h
  rcases Nat.lt_or_ge f.vlen (20 + n.toNat) with hl | hl
  · rw [withOptionsLen_short h40 hl] at h; cases h
  · rw [withOptionsLen_long h40 hl] at h; exact ⟨h40, hl, h⟩

end Sys2Proof.Machine
end

