-- ==== Sys2Proof/Laws/Agree.lean ====
section
/-! SUPPORT. Two frames that agree on the bytes an operation reads give it the same answer: one lemma per
shared operation (`20_memory.md` R46). To close a branch where a read has failed, use
`except_error_bind`: a plain `rfl` makes the kernel compare the two continuations. -/

namespace Sys2Proof.Machine

variable {f g : Frame}

theorem Frame.vlen_congr (h : f.flen = g.flen) : f.vlen = g.vlen := by rw [vlen_eq, vlen_eq, h]

theorem Frame.memRead16_congr {a : Nat} (h0 : f.readByte a = g.readByte a)
    (h1 : f.readByte (a + 1) = g.readByte (a + 1)) : f.memRead16 a = g.memRead16 a := by
  rw [memRead16, memRead16, h0, h1]

theorem Frame.memRead32_congr {a : Nat} (h0 : f.readByte a = g.readByte a)
    (h1 : f.readByte (a + 1) = g.readByte (a + 1)) (h2 : f.readByte (a + 2) = g.readByte (a + 2))
    (h3 : f.readByte (a + 3) = g.readByte (a + 3)) : f.memRead32 a = g.memRead32 a := by
  rw [memRead32, memRead32, h0, h1, h2, h3]

theorem Frame.readBytes_congr {a n : Nat}
    (h : ∀ k, a ≤ k → k < a + n → f.readByte k = g.readByte k) : f.readBytes a n = g.readBytes a n := by
  induction n generalizing a with
  | zero => rfl
  | succ n ih =>
    rw [readBytes, readBytes, h a (by omega) (by omega),
      ih fun k h1 h2 => h k (by omega) (by omega)]

/-- The sum of the first `n` view octets reads those octets only. -/
theorem Frame.foldSum_congr {n : Nat} {mode : SumMode}
    (h : ∀ k, k < n → f.viewByte k = g.viewByte k) : f.foldSum n mode = g.foldSum n mode := by
  rw [foldSum, foldSum, viewBytes, viewBytes, readBytes_congr]
  intro k h1 h2
  simp only [Config.envelopeLen] at h1 h2
  simpa [viewByte, Nat.add_sub_cancel' h1] using h (k - 4) (by omega)

/-- The summary record reads the first 20 view octets only. -/
theorem Frame.headerSummary_congr (h : ∀ k, k < 20 → f.viewByte k = g.viewByte k) :
    f.headerSummary = g.headerSummary := by
  have h16 (k : Nat) (hk : k < 19) : f.be16 k = g.be16 k :=
    memRead16_congr (h k (by omega)) (h (k + 1) (by omega))
  have h32 (k : Nat) (hk : k < 17) : f.be32 k = g.be32 k :=
    memRead32_congr (h k (by omega)) (h (k + 1) (by omega)) (h (k + 2) (by omega))
      (h (k + 3) (by omega))
  unfold headerSummary version ihl dscp ecn totalLength identification reserved dontFragment
    moreFragments fragmentOffset ttl protocolNumber headerChecksum sourceAddress destinationAddress
  rw [h 0 (by omega), h 1 (by omega), h 6 (by omega), h 7 (by omega), h 8 (by omega),
    h 9 (by omega), h16 2 (by omega), h16 4 (by omega), h16 10 (by omega), h32 12 (by omega),
    h32 16 (by omega)]

theorem scalar_congr {n : Nat} {field : Frame → Except Fault (BitVec n)} (hl : f.flen = g.flen)
    (h : field f = field g) : scalar field f = scalar field g := by
  simp [scalar, withView, withViewOf, Frame.vlen_congr hl, h]

/-- The header check reads view octet 0 and goes on only when the header it declares fits. -/
theorem withHeader_congr {k k' : BitVec 4 → Except Fault Response} (hl : f.flen = g.flen)
    (h0 : f.viewByte 0 = g.viewByte 0)
    (hk : ∀ b0, f.viewByte 0 = .ok b0 → 5 ≤ b0.toNat % 16 → b0.toNat % 16 * 4 ≤ f.vlen →
      k (ihlBits b0) = k' (ihlBits b0)) : withHeader f k = withHeader g k' := by
  have hv := Frame.vlen_congr hl
  rcases withHeader_cases f k with ⟨h, e⟩ | ⟨h, x, hx, e⟩ | ⟨b0, h, hb, e⟩
  · rw [e, withHeader_short (by omega)]
  · rcases withHeader_cases g k' with ⟨h', -⟩ | ⟨-, x', hx', e'⟩ | ⟨b0, -, hb, -⟩
    · omega
    · rw [e, e']; rw [h0, hx'] at hx; cases hx; rfl
    · rw [h0, hb] at hx; cases hx
  · have hg : g.viewByte 0 = .ok b0 := h0 ▸ hb
    rcases e with ⟨h5, e⟩ | ⟨h5, hl, e⟩ | ⟨h5, hl, e⟩
    · rw [e, withHeader_invalid (by omega) hg h5]
    · rw [e, withHeader_truncated (by omega) hg h5 (by omega)]
    · rw [e, withHeader_valid hg h5 (by omega)]; exact hk b0 hb h5 hl

theorem summaryResult_congr {h : BitVec 4} {totalLength : Half}
    (hs : f.headerSummary = g.headerSummary)
    (hf : f.foldSum (headerBytes h) .verify = g.foldSum (headerBytes h) .verify) :
    summaryResult f h totalLength = summaryResult g h totalLength := by
  rw [summaryResult, summaryResult, hs, hf]

/-- `DEC.SUMMARY` reads the link identifier, view octet 0 and the header it declares. -/
theorem decSummary_congr (hl : f.flen = g.flen) (hid : f.linkId = g.linkId)
    (h0 : f.viewByte 0 = g.viewByte 0)
    (hk : ∀ b0, f.viewByte 0 = .ok b0 → ∀ k, k < b0.toNat % 16 * 4 → f.viewByte k = g.viewByte k) :
    decSummary f = decSummary g := by
  have hv := Frame.vlen_congr hl
  rw [decSummary, decSummary, withEnvelope, withEnvelope, hl, hid]
  split
  · rfl
  cases g.linkId with
  | error e => simp only [except_error_bind]
  | ok id =>
    simp only [except_ok_bind]
    split
    · rfl
    refine withHeader_congr hl h0 fun b0 hb h5 _ => ?_
    have hk := hk b0 hb
    have ht : f.totalLength = g.totalLength :=
      Frame.memRead16_congr (hk 2 (by omega)) (hk 3 (by omega))
    rw [ht]
    cases g.totalLength with
    | error e => simp only [except_error_bind]
    | ok tl =>
      simp only [except_ok_bind, hv]
      split
      · rfl
      · exact summaryResult_congr (Frame.headerSummary_congr fun k h => hk k (by omega))
          (Frame.foldSum_congr (by simpa using hk))

end Sys2Proof.Machine
end

