-- ==== Sys2Proof/Laws/Checksum.lean ====
section
/-! SUPPORT. The checksum operations on a view whose octets are known. -/

namespace Sys2Proof.Machine

variable {f : Frame} {B : List Byte}

theorem Frame.HasView.foldSum (h : f.HasView B) (mode : SumMode) :
    f.foldSum B.length mode = .ok (foldSumBytes mode B) := by
  rw [Frame.foldSum, viewBytes_ok.mpr ⟨rfl, h⟩, except_ok_bind]

theorem computeResult_of (h : f.HasView B) :
    computeResult f B.length = respond ((~~~foldSumBytes .compute B).setWidth 32)
      ((foldSumBytes .compute B).setWidth 32) := by
  rw [computeResult, h.foldSum, except_ok_bind]

theorem verifyResult_of (h : f.HasView B) :
    verifyResult f B.length =
      respond ((BitVec.ofBool (cksumValid (foldSumBytes .verify B))).setWidth 32)
        ((foldSumBytes .verify B).setWidth 32) := by
  rw [verifyResult, h.foldSum, except_ok_bind]

theorem csCompute_of (h : f.HasView B) (hl : B.length = (B.getD 0 0).toNat % 16 * 4)
    (h5 : 5 ≤ (B.getD 0 0).toNat % 16) : csCompute f = computeResult f B.length := by
  have := h.le_vlen
  rw [csCompute, withHeader_valid (h.byte (by omega)) h5 (by omega), headerBytes_ihlBits, ← hl]

theorem csVerify_of (h : f.HasView B) (hl : B.length = (B.getD 0 0).toNat % 16 * 4)
    (h5 : 5 ≤ (B.getD 0 0).toNat % 16) : csVerify f = verifyResult f B.length := by
  have := h.le_vlen
  rw [csVerify, withHeader_valid (h.byte (by omega)) h5 (by omega), headerBytes_ihlBits, ← hl]

theorem csComputeN_of (h : f.HasView B) {n : Byte} (hn : n.toNat ≤ 40)
    (hl : B.length = 20 + n.toNat) : csComputeN n f = computeResult f B.length := by
  have := h.le_vlen
  rw [csComputeN, withOptionsLen_long hn (by omega), ← hl]

theorem csVerifyN_of (h : f.HasView B) {n : Byte} (hn : n.toNat ≤ 40)
    (hl : B.length = 20 + n.toNat) : csVerifyN n f = verifyResult f B.length := by
  have := h.le_vlen
  rw [csVerifyN, withOptionsLen_long hn (by omega), ← hl]

end Sys2Proof.Machine
end

