-- ==== Sys2Proof/Laws/Word.lean ====
section
/-! SUPPORT. Bit vectors as numbers: concatenation is a weighted sum, so that the slices of the machine
meet the plain arithmetic of the statements. -/

namespace Sys2Proof

/-- A concatenation as a number. -/
theorem toNat_append_add {m n : Nat} (a : BitVec m) (b : BitVec n) :
    (a ++ b).toNat = a.toNat * 2 ^ n + b.toNat := by
  rw [BitVec.toNat_append, ← Nat.shiftLeft_add_eq_or_of_lt b.isLt, Nat.shiftLeft_eq]

/-- A slice as a number. -/
theorem toNat_extract {n : Nat} (a : BitVec n) (start len : Nat) :
    (a.extractLsb' start len).toNat = a.toNat / 2 ^ start % 2 ^ len := by
  rw [BitVec.extractLsb'_toNat, Nat.shiftRight_eq_div_pow]

/-- A zero-extended value is the numeral of its number. -/
theorem setWidth_eq_ofNat {m n : Nat} (a : BitVec m) : a.setWidth n = BitVec.ofNat n a.toNat := by
  apply BitVec.eq_of_toNat_eq
  simp

end Sys2Proof
end

