-- ==== Sys2Proof/Laws/Decode.lean ====
section
/-! SUPPORT. The fields of a command word: splitting what was joined and joining what was split, and that
the format N table gives each code one operation. -/

namespace Sys2Proof

@[simp] theorem opField_append (op arg : Byte) : opField (op ++ arg) = op := by
  apply BitVec.eq_of_toNat_eq
  have := op.isLt
  have := arg.isLt
  rw [opField, toNat_extract, toNat_append_add]
  omega

@[simp] theorem argField_append (op arg : Byte) : argField (op ++ arg) = arg := by
  apply BitVec.eq_of_toNat_eq
  have := arg.isLt
  rw [argField, toNat_extract, toNat_append_add]
  omega

/-- A command word is its two fields. -/
theorem fields_append (w : Half) : opField w ++ argField w = w := by
  apply BitVec.eq_of_toNat_eq
  have := w.isLt
  rw [toNat_append_add, opField, argField, toNat_extract, toNat_extract]
  omega

/-- No two rows of the format N table share an operation code. -/
theorem formatN_codes_distinct : (formatN.map Prod.fst).Pairwise (· ≠ ·) := by decide

/-- Every row of the format N table is a format N operation under its own code. -/
theorem formatN_rows : ∀ row ∈ formatN, row.2.opcode = row.1 ∧ row.2.imm = none ∧ row.2.wf = true := by
  decide

end Sys2Proof
end

