-- ==== Sys2Proof/Laws/PerInstr.lean ====
section
/-! SUPPORT. A fact about each operation as syntax: its command word has its operation code in the high
byte and its immediate, or zero, in the low byte. -/

namespace Sys2Proof.Laws.EncodedFields

/-- `OP` and `ARG` of the operation's command word (R60). -/
def Statement (i : Instr) : Prop :=
  opField (encode i) = i.opcode ∧ argField (encode i) = i.imm.getD 0

theorem of_append (i : Instr) : Statement i := ⟨opField_append _ _, argField_append _ _⟩

theorem envClass : Statement .envClass := of_append _
theorem hvVersion : Statement .hvVersion := of_append _
theorem hvIhl : Statement .hvIhl := of_append _
theorem hvDscp : Statement .hvDscp := of_append _
theorem hvEcn : Statement .hvEcn := of_append _
theorem hvTotlen : Statement .hvTotlen := of_append _
theorem hvIdent : Statement .hvIdent := of_append _
theorem hvDf : Statement .hvDf := of_append _
theorem hvMf : Statement .hvMf := of_append _
theorem hvFragoff : Statement .hvFragoff := of_append _
theorem hvTtl : Statement .hvTtl := of_append _
theorem hvProtonum : Statement .hvProtonum := of_append _
theorem hvCsumfld : Statement .hvCsumfld := of_append _
theorem hvSrc : Statement .hvSrc := of_append _
theorem hvDst : Statement .hvDst := of_append _
theorem hvOptions : Statement .hvOptions := of_append _
theorem csCompute : Statement .csCompute := of_append _
theorem csVerify : Statement .csVerify := of_append _
theorem csComputeN (n : Byte) : Statement (.csComputeN n) := of_append _
theorem csVerifyN (n : Byte) : Statement (.csVerifyN n) := of_append _
theorem pcMap (imm : Byte) : Statement (.pcMap imm) := of_append _
theorem pcHdr : Statement .pcHdr := of_append _
theorem decSummary : Statement .decSummary := of_append _

end Sys2Proof.Laws.EncodedFields
end

