-- ==== Sys2Proof/Laws/Step.lean ====
section
/-! SUPPORT. Everything a step can do, said once. -/

namespace Sys2Proof.Machine

/-- The function of the frame behind each operation (R14). -/
def opOf : Instr → Frame → Except Fault Response
  | .envClass => Machine.envClass
  | .hvVersion => scalar Frame.version
  | .hvIhl => Machine.hvIhl
  | .hvDscp => scalar Frame.dscp
  | .hvEcn => scalar Frame.ecn
  | .hvTotlen => scalar Frame.totalLength
  | .hvIdent => scalar Frame.identification
  | .hvDf => scalar Frame.dontFragment
  | .hvMf => scalar Frame.moreFragments
  | .hvFragoff => scalar Frame.fragmentOffset
  | .hvTtl => scalar Frame.ttl
  | .hvProtonum => scalar Frame.protocolNumber
  | .hvCsumfld => scalar Frame.headerChecksum
  | .hvSrc => scalar Frame.sourceAddress
  | .hvDst => scalar Frame.destinationAddress
  | .hvOptions => Machine.hvOptions
  | .csCompute => Machine.csCompute
  | .csVerify => Machine.csVerify
  | .csComputeN n => Machine.csComputeN n
  | .csVerifyN n => Machine.csVerifyN n
  | .pcMap imm => Machine.pcMap imm
  | .pcHdr => Machine.pcHdr
  | .decSummary => Machine.decSummary

/-- Every operation is a function of the frame, run by `execOn`. -/
theorem exec_eq (i : Instr) (s : State) : exec i s = execOn (opOf i) s := by cases i <;> rfl

/-- A step on a `LOAD`. -/
theorem step_load {s : State} {bytes : List Byte} {rest : List HostMove}
    (h : s.inbox = .load bytes :: rest) : step s = loadFrame bytes (s.withInbox rest) := by
  simp only [step, h]

theorem loadFrame_fits {s : State} {bytes : List Byte} (h : bytes.length < 2 ^ 32) :
    loadFrame bytes s = .next (s.withFrame (.ofBytes bytes)) := if_pos h

theorem loadFrame_tooLong {s : State} {bytes : List Byte} (h : 2 ^ 32 ≤ bytes.length) :
    loadFrame bytes s = .refused (.frameTooLong bytes.length) := if_neg (Nat.not_lt.mpr h)

/-- What a step that answers a next state did: nothing, a `LOAD`, an operation, or an illegal command. -/
theorem step_cases {s t : State} (h : step s = .next t) :
    (s.inbox = [] ∧ t = s) ∨
    (∃ bytes rest, s.inbox = .load bytes :: rest ∧ bytes.length < 2 ^ 32 ∧
      t = (s.withInbox rest).withFrame (.ofBytes bytes)) ∨
    (∃ w rest i r, s.inbox = .issue w :: rest ∧ decodeWord w = some i ∧
      opOf i s.frame = .ok r ∧ t = (s.withInbox rest).answer r) ∨
    (∃ w rest, s.inbox = .issue w :: rest ∧ decodeWord w = none ∧
      t = (s.withInbox rest).answer (.failed .illegalCommand)) := by
  unfold step at h
  split at h
  · next hi => cases h; exact .inl ⟨hi, rfl⟩
  · next bytes rest hi =>
    unfold loadFrame at h
    split at h
    · next hl => cases h; exact .inr (.inl ⟨bytes, rest, hi, hl, rfl⟩)
    · cases h
  · next w rest hi =>
    split at h
    · next i hd =>
      rw [exec_eq] at h
      obtain ⟨r, hr, ht⟩ := execOn_next.mp h
      exact .inr (.inr (.inl ⟨w, rest, i, r, hi, hd, hr, ht⟩))
    · next hd =>
      obtain ⟨r, hr, ht⟩ := execOn_next.mp h
      cases hr
      exact .inr (.inr (.inr ⟨w, rest, hi, hd, ht⟩))

end Sys2Proof.Machine
end

