-- ==== Sys2Proof/Laws/Run.lean ====
section
/-! SUPPORT. A run one step at a time: what the first step does decides the rest. -/

namespace Sys2Proof.Machine

theorem run_zero (s : State) : Host.Core.run Sys2Proof.core 0 s = .next s := rfl

/-- A first step of any machine that answers a next state. -/
theorem coreRun_of_next (M : Host.Core) {s t : M.State} (k : Nat) (h : M.step s = .next t) :
    M.run (k + 1) s = M.run k t := by rw [Host.Core.run, h]

/-- A first step of any machine that faults. -/
theorem coreRun_of_fault (M : Host.Core) {s : M.State} {e : M.Fault} (k : Nat)
    (h : M.step s = .fault e) : M.run (k + 1) s = .fault e := by rw [Host.Core.run, h]

/-- A first step of any machine that is refused. -/
theorem coreRun_of_refused (M : Host.Core) {s : M.State} {r : M.Refusal} (k : Nat)
    (h : M.step s = .refused r) : M.run (k + 1) s = .refused r := by rw [Host.Core.run, h]

theorem run_of_next {s t : State} (k : Nat) (h : step s = .next t) :
    Host.Core.run Sys2Proof.core (k + 1) s = Host.Core.run Sys2Proof.core k t :=
  coreRun_of_next Sys2Proof.core k h

theorem run_of_fault {s : State} {e : Fault} (k : Nat) (h : step s = .fault e) :
    Host.Core.run Sys2Proof.core (k + 1) s = .fault e := coreRun_of_fault Sys2Proof.core k h

theorem run_of_refused {s : State} {r : Refusal} (k : Nat) (h : step s = .refused r) :
    Host.Core.run Sys2Proof.core (k + 1) s = .refused r := coreRun_of_refused Sys2Proof.core k h

end Sys2Proof.Machine
end

