-- ==== Sys2Proof/Laws/Summary.lean ====
section
/-! SUPPORT. The fields of the header on a view whose octets are known, and everything `DEC.SUMMARY` can
do when it answers a result. -/

namespace Sys2Proof.Machine

variable {f : Frame} {B : List Byte}

theorem Frame.HasView.be16 (h : f.HasView B) {k : Nat} (hk : k + 1 < B.length) :
    f.be16 k = .ok (B.getD k 0 ++ B.getD (k + 1) 0) :=
  memRead16_of (h.byte (by omega)) (h.byte hk)

theorem Frame.HasView.be32 (h : f.HasView B) {k : Nat} (hk : k + 3 < B.length) :
    f.be32 k = .ok (B.getD k 0 ++ B.getD (k + 1) 0 ++ B.getD (k + 2) 0 ++ B.getD (k + 3) 0) :=
  memRead32_of (h.byte (k := k) (by omega)) (h.byte (k := k + 1) (by omega))
    (h.byte (k := k + 2) (by omega)) (h.byte hk)

/-- The record of R162 on known octets. -/
def headerSummaryOf (B : List Byte) : HeaderSummary where
  version := versionBits (B.getD 0 0)
  headerLength := ihlBits (B.getD 0 0)
  dscp := dscpBits (B.getD 1 0)
  ecn := ecnBits (B.getD 1 0)
  totalLength := B.getD 2 0 ++ B.getD 3 0
  identification := B.getD 4 0 ++ B.getD 5 0
  reserved := reservedBit (B.getD 6 0)
  dontFragment := dfBit (B.getD 6 0)
  moreFragments := mfBit (B.getD 6 0)
  fragmentOffset := fragoffBits (B.getD 6 0) (B.getD 7 0)
  ttl := B.getD 8 0
  protocolNumber := B.getD 9 0
  headerChecksum := B.getD 10 0 ++ B.getD 11 0
  sourceAddress := B.getD 12 0 ++ B.getD 13 0 ++ B.getD 14 0 ++ B.getD 15 0
  destinationAddress := B.getD 16 0 ++ B.getD 17 0 ++ B.getD 18 0 ++ B.getD 19 0
  options := .ofIhl (ihlBits (B.getD 0 0))

theorem Frame.HasView.headerSummary (h : f.HasView B) (hl : 20 ≤ B.length) :
    f.headerSummary = .ok (headerSummaryOf B) := by
  simp only [Frame.headerSummary, version, ihl, dscp, ecn, totalLength, identification, reserved,
    dontFragment, moreFragments, fragmentOffset, ttl, protocolNumber, headerChecksum, sourceAddress,
    destinationAddress, h.byte (k := 0) (by omega), h.byte (k := 1) (by omega),
    h.byte (k := 6) (by omega), h.byte (k := 7) (by omega), h.byte (k := 8) (by omega),
    h.byte (k := 9) (by omega), h.be16 (k := 2) (by omega), h.be16 (k := 4) (by omega),
    h.be16 (k := 10) (by omega), h.be32 (k := 12) (by omega), h.be32 (k := 16) (by omega),
    except_ok_bind, headerSummaryOf]

theorem summaryResult_of (h : f.HasView B) (h20 : 20 ≤ B.length) {n : BitVec 4}
    (hn : headerBytes n = B.length) (totalLength : Half) :
    summaryResult f n totalLength =
      respondSum
        (packFlags (cksumValid (foldSumBytes .verify B)) (verOk (headerSummaryOf B).version)
          (rsvOk (headerSummaryOf B).reserved) (lenOk n totalLength))
        (classify (B.getD 9 0)).pack (headerSummaryOf B).pack := by
  rw [summaryResult, hn, h.foldSum, h.headerSummary h20]
  rfl

theorem decSummary_short (h : f.flen.toNat < 4) : decSummary f = raise .frameTruncated :=
  withEnvelope_short h

theorem decSummary_other (h : 4 ≤ f.flen.toNat) {id : Half} (hid : f.linkId = .ok id)
    (hne : id ≠ 0x0800) : decSummary f = .ok (.notIPv4 id) := by
  rw [decSummary, withEnvelope_long h, hid, except_ok_bind, EnvVariant.ofId, if_neg hne]

/-- What `DEC.SUMMARY` does on a frame the envelope classifies as IPv4. -/
theorem decSummary_ipv4 (h : 4 ≤ f.flen.toNat) (hid : f.linkId = .ok 0x0800) :
    decSummary f = withHeader f (fun h => do
      let totalLength ← f.totalLength
      if f.vlen < totalLength.toNat then raise .frameTruncated
      else summaryResult f h totalLength) := by
  rw [decSummary, withEnvelope_long h, hid, except_ok_bind, EnvVariant.ofId, if_pos rfl]

/-- The checks of `DEC.SUMMARY` pass and the header is `B`: what is left is the total-length check. -/
theorem decSummary_header (h : 4 ≤ f.flen.toNat) (hid : f.linkId = .ok 0x0800) (hB : f.HasView B)
    (h5 : 5 ≤ (B.getD 0 0).toNat % 16) (hl : B.length = (B.getD 0 0).toNat % 16 * 4) :
    decSummary f =
      if f.vlen < (B.getD 2 0 ++ B.getD 3 0).toNat then raise .frameTruncated
      else summaryResult f (ihlBits (B.getD 0 0)) (B.getD 2 0 ++ B.getD 3 0) := by
  have := hB.le_vlen
  rw [decSummary_ipv4 h hid, withHeader_valid (hB.byte (by omega)) h5 (by omega), Frame.totalLength,
    hB.be16 (by omega), except_ok_bind]

/-- Everything `DEC.SUMMARY` has done when it answers a result. -/
theorem decSummary_done {val aux : Word} {sum : SummaryWords}
    (h : decSummary f = .ok (.done val aux sum)) :
    4 ≤ f.flen.toNat ∧ f.linkId = .ok 0x0800 ∧
    ∃ B : List Byte, f.HasView B ∧ 5 ≤ (B.getD 0 0).toNat % 16 ∧
      B.length = (B.getD 0 0).toNat % 16 * 4 ∧
      (B.getD 2 0 ++ B.getD 3 0).toNat ≤ f.vlen ∧
      val = packFlags (cksumValid (foldSumBytes .verify B)) (verOk (headerSummaryOf B).version)
          (rsvOk (headerSummaryOf B).reserved)
          (lenOk (ihlBits (B.getD 0 0)) (B.getD 2 0 ++ B.getD 3 0)) ∧
      aux = (classify (B.getD 9 0)).pack ∧ sum = (headerSummaryOf B).pack := by
  rcases Nat.lt_or_ge f.flen.toNat 4 with h4 | h4
  · rw [decSummary_short h4] at h; cases h
  cases hid : f.linkId with
  | error e => rw [decSummary, withEnvelope_long h4, hid, except_error_bind] at h; cases h
  | ok id =>
    by_cases hne : id = 0x0800
    · subst hne
      have hd := h
      rw [decSummary_ipv4 h4 hid] at h
      rcases withHeader_cases f _ with ⟨-, e⟩ | ⟨-, x, -, e⟩ | ⟨b0, h20, hb, e⟩
      · rw [e] at h; cases h
      · rw [e] at h; cases h
      rcases e with ⟨-, e⟩ | ⟨-, -, e⟩ | ⟨h5, hl, e⟩
      · rw [e] at h; cases h
      · rw [e] at h; cases h
      rw [e] at h
      obtain ⟨tl, -, h⟩ := except_bind_ok h
      split at h
      · cases h
      obtain ⟨folded, hf, -⟩ := except_bind_ok h
      obtain ⟨B, hv, -⟩ := except_bind_ok hf
      obtain ⟨hlen, hB⟩ := Frame.viewBytes_ok.mp hv
      clear hv
      rw [headerBytes_ihlBits] at hlen
      have h0 : b0 = B.getD 0 0 := by
        have := hB.byte (k := 0) (by omega)
        rw [hb] at this
        exact Except.ok.inj this
      subst h0
      rw [decSummary_header h4 hid hB h5 hlen] at hd
      split at hd
      · cases hd
      rw [summaryResult_of hB (by omega) (by simpa using hlen.symm)] at hd
      cases hd
      exact ⟨h4, rfl, B, hB, h5, hlen, by omega, rfl, rfl, rfl⟩
    · rw [decSummary_other h4 hid hne] at h; cases h

end Sys2Proof.Machine
end

