-- ==== Sys2Proof/Tests/Slice0.lean ====
section
/-! SUPPORT. Small tests, and for every statement with hypotheses a witness that meets them. The expected
results are those of `spec/95_test_vectors.md` (the frame's name there is given beside each test), not the
model's own. -/

namespace Sys2Proof.Machine.Tests

set_option maxRecDepth 20000

/-! ## Frames -/

/-- The machine right after `LOAD(bytes)` from reset. -/
def loaded (bytes : List Byte) : State := State.reset.withFrame (.ofBytes bytes)

/-- The record the host reads when it issues `w` on the frame `bytes`: one step. -/
def answerTo (w : Half) (bytes : List Byte) : Option Rsp :=
  match step ((loaded bytes).issueNext w) with
  | .next t => t.rsp
  | .fault _ => none
  | .refused _ => none

def env4 : List Byte := [0x00, 0x00, 0x08, 0x00]
def tailAB : List Byte := [0x0A, 0x00, 0x00, 0x01, 0x0A, 0x00, 0x00, 0x02]

/-- The view bytes of frame KV. -/
def viewKV : List Byte :=
  [0x45, 0x00, 0x00, 0x14, 0x00, 0x00, 0x40, 0x00, 0x40, 0x11, 0xB8, 0x61] ++ tailAB

/-- The view bytes of frame KV2. -/
def viewKV2 : List Byte :=
  [0x45, 0x00, 0x00, 0x14, 0x00, 0x00, 0x40, 0x00, 0x40, 0x11, 0x26, 0xD7] ++ tailAB

/-- The header of frame OPT: header_length 6. -/
def viewOPT : List Byte :=
  [0x46, 0xB9, 0x00, 0x1C, 0x12, 0x34, 0x20, 0x05, 0x80, 0x06, 0x86, 0xA9] ++
    [0xC0, 0x00, 0x02, 0x01, 0xC6, 0x33, 0x64, 0x07, 0x94, 0x04, 0x00, 0x00]

/-- The view bytes of frame ODD-V: a valid checksum over three option bytes. -/
def viewODDV : List Byte :=
  [0x45, 0x00, 0x00, 0x14, 0x00, 0x00, 0x40, 0x00, 0x40, 0x11, 0x22, 0xD5] ++ tailAB ++
    [0x01, 0x02, 0x03]

/-- The view bytes of frame FLAGS: version 6, reserved flag set, total_length 16. -/
def viewFLAGS : List Byte :=
  [0x65, 0x00, 0x00, 0x10, 0x00, 0x00, 0x80, 0x00, 0x01, 0x01, 0x05, 0xEB] ++ tailAB

/-- The view bytes of frame HLI: header_length 4. -/
def viewHLI : List Byte := viewKV2.set 0 0x44

def kv : State := loaded (env4 ++ viewKV)
def kv2 : State := loaded (env4 ++ viewKV2)
def opt : State := loaded (env4 ++ (viewOPT ++ [0xDE, 0xAD, 0xBE, 0xEF]))
def oddV : State := loaded (env4 ++ viewODDV)
def hli : State := loaded (env4 ++ viewHLI)
/-- frame SHORT: 19 view bytes -/
def short : State := loaded (env4 ++ viewKV2.take 19)
/-- frame MAX59: 59 view bytes of `FF` -/
def max59 : State := loaded (env4 ++ List.replicate 59 0xFF)
/-- frame TL21: total_length 21 in a view of 20 bytes -/
def tl21 : State := loaded (env4 ++ (viewKV2.set 3 0x15).set 9 0x06)
/-- frame V6 -/
def v6 : State := loaded [0x00, 0x00, 0x86, 0xDD, 0x60, 0x00, 0x00, 0x00]

def frameOPT : List Byte := env4 ++ viewOPT ++ [0xDE, 0xAD, 0xBE, 0xEF]
def frameMAX : List Byte := env4 ++ List.replicate 60 0xFF

/-! ## Well-formedness refuses (R63) -/

theorem test_wf_computeN_41 : (Instr.csComputeN 41).wf = false := by decide
theorem test_wf_computeN_40 : (Instr.csComputeN 40).wf = true := by decide
theorem test_wf_verifyN_255 : (Instr.csVerifyN 255).wf = false := by decide
theorem test_wf_pcMap_255 : (Instr.pcMap 255).wf = true := by decide
theorem test_exec_illformed_computeN :
    exec (.csComputeN 41) kv2 = .next (kv2.answer (.failed .illegalCommand)) := rfl

/-! ## Decoding: the words of R64, written out from the `OP` column and the format -/

theorem test_decode_env : decode 0b0000000100000000 = .ok .envClass := by decide
theorem test_decode_hv :
    decode 0b0001000000000000 = .ok .hvVersion ∧ decode 0b0001000100000000 = .ok .hvIhl ∧
    decode 0b0001001000000000 = .ok .hvDscp ∧ decode 0b0001001100000000 = .ok .hvEcn ∧
    decode 0b0001010000000000 = .ok .hvTotlen ∧ decode 0b0001010100000000 = .ok .hvIdent ∧
    decode 0b0001011000000000 = .ok .hvDf ∧ decode 0b0001011100000000 = .ok .hvMf := by decide
theorem test_decode_hv_upper :
    decode 0b0001100000000000 = .ok .hvFragoff ∧ decode 0b0001100100000000 = .ok .hvTtl ∧
    decode 0b0001101000000000 = .ok .hvProtonum ∧ decode 0b0001101100000000 = .ok .hvCsumfld ∧
    decode 0b0001110000000000 = .ok .hvSrc ∧ decode 0b0001110100000000 = .ok .hvDst ∧
    decode 0b0001111000000000 = .ok .hvOptions := by decide
theorem test_decode_cs :
    decode 0b0010000000000000 = .ok .csCompute ∧ decode 0b0010000100000000 = .ok .csVerify ∧
    decode 0b0010001000000011 = .ok (.csComputeN 3) ∧
    decode 0b0010001100101000 = .ok (.csVerifyN 40) := by decide
theorem test_decode_pc_dec :
    decode 0b0011000011111101 = .ok (.pcMap 253) ∧ decode 0b0011000100000000 = .ok .pcHdr ∧
    decode 0b0100000000000000 = .ok .decSummary := by decide
/-- 2.9: the illegal words, each rejected by name. -/
theorem test_decode_rejects :
    decode 0x0000 = .error (.unassignedOpcode 0x00) ∧
    decode 0x0101 = .error (.argNotZero 0x01 0x01) ∧
    decode 0x1F00 = .error (.unassignedOpcode 0x1F) ∧
    decode 0x2229 = .error (.optionsLenTooLarge 0x22 41) ∧
    decode 0x23FF = .error (.optionsLenTooLarge 0x23 255) ∧
    decode 0xFFFF = .error (.unassignedOpcode 0xFF) := by decide
/-- The edges of every range of R66. -/
theorem test_decode_range_edges :
    [0x0000, 0x0200, 0x0F00, 0x1F00, 0x2400, 0x2F00, 0x3200, 0x3F00, 0x4100, 0xFF00].all
      (fun w : Half => decodeWord w == none) = true := by decide
theorem test_decode_nonzero_arg :
    [0x0101, 0x1001, 0x1E80, 0x2001, 0x2101, 0x3101, 0x4001, 0x2229, 0x2329].all
      (fun w : Half => decodeWord w == none) = true := by decide
theorem test_decodeTableWord : decodeTableWord 16 0x2203 = some (.csComputeN 3) := by decide
theorem test_fetchWord_runs :
    step (State.reset.withFetchWord 16 0x3011) =
      .next (State.reset.answer (.done 0x0411 0 .zero)) := rfl

/-! ## Listing (R68) -/

theorem test_listing : (Instr.csComputeN 3).listing = "CS.COMPUTE.N 3" := by decide

/-! ## Operations, one step each -/

-- 2.1: frame `12 34 08 00`, and three bytes
theorem test_envClass : answerTo 0x0100 [0x12, 0x34, 0x08, 0x00] = some ⟨0, 0x10800, 0, .zero⟩ := by
  decide
theorem test_envClass_short : answerTo 0x0100 [0x00, 0x00, 0x08] = some ⟨2, 0, 0, .zero⟩ := by
  decide
-- FLAGS, SHORT
theorem test_hvVersion : answerTo 0x1000 (env4 ++ viewFLAGS) = some ⟨0, 6, 0, .zero⟩ := by
  decide
theorem test_hvVersion_short : answerTo 0x1000 (env4 ++ viewKV2.take 19) = some ⟨2, 0, 0, .zero⟩ := by
  decide
-- OPT, HLI
theorem test_hvIhl : answerTo 0x1100 frameOPT = some ⟨0, 6, 0, .zero⟩ := by decide
theorem test_hvIhl_invalid : answerTo 0x1100 (env4 ++ viewHLI) = some ⟨1, 0, 0, .zero⟩ := by
  decide
-- OPT: the two fields of the byte B9
theorem test_hvDscp : answerTo 0x1200 frameOPT = some ⟨0, 0x2E, 0, .zero⟩ := by decide
theorem test_hvEcn : answerTo 0x1300 frameOPT = some ⟨0, 1, 0, .zero⟩ := by decide
-- OPT: byte order
theorem test_hvTotlen : answerTo 0x1400 frameOPT = some ⟨0, 0x1C, 0, .zero⟩ := by decide
theorem test_hvIdent : answerTo 0x1500 frameOPT = some ⟨0, 0x1234, 0, .zero⟩ := by decide
-- KV, OPT: the flags and the offset share octet 6
theorem test_hvDf : answerTo 0x1600 (env4 ++ viewKV) = some ⟨0, 1, 0, .zero⟩ := by decide
theorem test_hvDf_clear : answerTo 0x1600 frameOPT = some ⟨0, 0, 0, .zero⟩ := by decide
theorem test_hvMf : answerTo 0x1700 frameOPT = some ⟨0, 1, 0, .zero⟩ := by decide
theorem test_hvMf_clear : answerTo 0x1700 (env4 ++ viewKV) = some ⟨0, 0, 0, .zero⟩ := by
  decide
theorem test_hvFragoff : answerTo 0x1800 frameOPT = some ⟨0, 5, 0, .zero⟩ := by decide
theorem test_hvFragoff_max : answerTo 0x1800 frameMAX = some ⟨0, 0x1FFF, 0, .zero⟩ := by
  decide
theorem test_hvTtl : answerTo 0x1900 frameOPT = some ⟨0, 0x80, 0, .zero⟩ := by decide
theorem test_hvProtonum : answerTo 0x1A00 frameOPT = some ⟨0, 6, 0, .zero⟩ := by decide
theorem test_hvCsumfld : answerTo 0x1B00 (env4 ++ viewKV) = some ⟨0, 0xB861, 0, .zero⟩ := by
  decide
theorem test_hvSrc : answerTo 0x1C00 frameOPT = some ⟨0, 0xC0000201, 0, .zero⟩ := by decide
theorem test_hvDst : answerTo 0x1D00 frameOPT = some ⟨0, 0xC6336407, 0, .zero⟩ := by decide
-- MAX, MAX59
theorem test_hvOptions : answerTo 0x1E00 frameMAX = some ⟨0, 20, 40, .zero⟩ := by decide
theorem test_hvOptions_truncated :
    answerTo 0x1E00 (env4 ++ List.replicate 59 0xFF) = some ⟨2, 0, 0, .zero⟩ := by decide
-- KV (conflict C1), KV2, MAX
theorem test_csCompute : answerTo 0x2000 (env4 ++ viewKV) = some ⟨0, 0x26D7, 0xD928, .zero⟩ := by
  decide
theorem test_csVerify_printed :
    answerTo 0x2100 (env4 ++ viewKV) = some ⟨0, 0, 0x918A, .zero⟩ := by decide
theorem test_csVerify_max : answerTo 0x2100 frameMAX = some ⟨0, 1, 0xFFFF, .zero⟩ := by
  decide
-- ODD-V (odd length), DBL (two folds)
theorem test_csVerifyN_odd :
    answerTo 0x2303 (env4 ++ viewODDV) = some ⟨0, 1, 0xFFFF, .zero⟩ := by decide
theorem test_csComputeN_odd :
    answerTo 0x2203 (env4 ++ viewODDV) = some ⟨0, 0x22D5, 0xDD2A, .zero⟩ := by decide
theorem test_csComputeN_two_folds :
    answerTo 0x2200 (env4 ++ [0xFF, 0xFF, 0xFF, 0xFF, 0x00, 0x01] ++ List.replicate 14 0) =
      some ⟨0, 0xFFFE, 1, .zero⟩ := by decide
-- S2, FLAGS
theorem test_pcMap : answerTo 0x3011 [] = some ⟨0, 0x0411, 0, .zero⟩ := by decide
theorem test_pcMap_unknown : answerTo 0x30FD [] = some ⟨0, 0x00FD, 0, .zero⟩ := by decide
theorem test_pcHdr : answerTo 0x3100 (env4 ++ viewFLAGS) = some ⟨0, 0x0101, 0, .zero⟩ := by
  decide
-- OPT, FLAGS
theorem test_decSummary :
    answerTo 0x4000 frameOPT = some ⟨0, 0xF, 0x306,
      ⟨0x46B9001C, 0x12342005, 0x800686A9, 0xC0000201, 0xC6336407, 0x00001404⟩⟩ := by decide
theorem test_decSummary_flags :
    answerTo 0x4000 (env4 ++ viewFLAGS) = some ⟨0, 1, 0x101,
      ⟨0x65000010, 0x00008000, 0x010105EB, 0x0A000001, 0x0A000002, 0x00001400⟩⟩ := by decide
-- V6-SHORT: the envelope exit comes before the length checks
theorem test_decSummary_notIPv4 :
    answerTo 0x4000 [0x00, 0x00, 0x86, 0xDD, 0x44] = some ⟨4, 0x86DD, 0, .zero⟩ := by decide
-- 2.9: decoding comes before any frame check
theorem test_illegal_before_frame : answerTo 0x0F00 [] = some ⟨3, 0, 0, .zero⟩ := by decide
-- KV2 cut by the host to an FLEN that `FB` does not back: the read stops by name
theorem test_unloaded_byte_faults :
    exec .hvTtl { State.reset with frame := { fb := [], flen := 24 } } =
      .fault (.unspecifiedFrameByte 12) := rfl

/-! ## Witnesses: for each statement with hypotheses, a state and operands that meet them -/

theorem loaded_loaded (bytes : List Byte) (h : bytes.length < 2 ^ 32) :
    (loaded bytes).frame.Loaded := Frame.ofBytes_loaded h

theorem kv2_loaded : kv2.frame.Loaded := loaded_loaded _ (by decide)
theorem opt_loaded : opt.frame.Loaded := loaded_loaded _ (by decide)
theorem v6_loaded : v6.frame.Loaded := loaded_loaded _ (by decide)
theorem kv_view : kv.frame.HasView viewKV := Frame.ofBytes_hasView rfl (by decide)
theorem kv2_view : kv2.frame.HasView viewKV2 := Frame.ofBytes_hasView rfl (by decide)
theorem tl21_view : tl21.frame.HasView ((viewKV2.set 3 0x15).set 9 0x06) :=
  Frame.ofBytes_hasView rfl (by decide)
theorem oddV_view : oddV.frame.HasView viewODDV := Frame.ofBytes_hasView rfl (by decide)
theorem opt_view : opt.frame.HasView viewOPT := by
  have h : opt.frame.HasView (viewOPT ++ [0xDE, 0xAD, 0xBE, 0xEF]) :=
    Frame.ofBytes_hasView rfl (by decide)
  exact h.take 24

/-- The state with one more command to come. -/
def issuing (s : State) (w : Half) : State := s.issueNext w

/-- A `LOAD` too long for `FLEN`. -/
@[irreducible] def tooLong : List Byte := List.replicate (2 ^ 32) 0
theorem tooLong_length : tooLong.length = 2 ^ 32 := by unfold tooLong; exact List.length_replicate

theorem witness_OpcodeMapDecodes : ∃ n m : Byte, n.toNat ≤ 40 ∧ n = 40 ∧ m.toNat ≤ 40 ∧ m = 0 :=
  ⟨40, 0, by decide⟩
theorem witness_DecodeOfEncodeIsIdentity :
    (Instr.csComputeN 40).wf = true ∧ (Instr.pcMap 255).wf = true ∧ Instr.decSummary.wf = true := by
  decide
theorem witness_EncodeOfDecodeIsIdentity : decode 0x2328 = .ok (.csVerifyN 40) := by decide
theorem witness_IllegalWordsAnswerIllegalCommand :
    (issuing kv2 0x2229).inbox = .issue 0x2229 :: [] ∧ decodeWord 0x2229 = none := ⟨rfl, by decide⟩
theorem witness_StepRunsTheIssuedOperation :
    (issuing kv2 0x2203).inbox = .issue 0x2203 :: [] ∧ decode 0x2203 = .ok (.csComputeN 3) ∧
    (Instr.csComputeN 3).wf = true := ⟨rfl, by decide, by decide⟩
theorem witness_LoadReplacesTheFrame :
    ∃ s s' : State, s.inbox = .load (env4 ++ viewKV2) :: [] ∧ (env4 ++ viewKV2).length < 2 ^ 32 ∧
      s'.inbox = .load tooLong :: [] ∧ 2 ^ 32 ≤ tooLong.length :=
  ⟨State.reset.withInbox [.load (env4 ++ viewKV2)], State.reset.withInbox [.load tooLong], rfl,
    by decide, rfl, tooLong_length.ge⟩
theorem witness_IdleStepChangesNothing : State.reset.inbox = [] := rfl
theorem witness_BeforeFirstLoadEverythingIsTruncated :
    State.reset.frame.flen = 0 ∧ Instr.decSummary.wf = true ∧ (Instr.pcMap 2).wf = true := by decide
theorem witness_StepKeepsTheFrameLoaded :
    ∃ t, (kv2.withInbox [.load frameOPT]).frame.Loaded ∧
      step (kv2.withInbox [.load frameOPT]) = .next t := ⟨_, kv2_loaded, rfl⟩
theorem witness_LoadedFrameNeverFaults :
    (kv2.withInbox [.load tooLong]).frame.Loaded ∧
      step (kv2.withInbox [.load tooLong]) = .refused (.frameTooLong tooLong.length) :=
  ⟨kv2_loaded, (step_load rfl).trans (loadFrame_tooLong tooLong_length.ge)⟩
theorem witness_EveryOperationAnswers : kv2.frame.Loaded := kv2_loaded
theorem witness_OperationsChangeOnlyTheResponse : ∃ t, exec .decSummary kv2 = .next t := ⟨_, rfl⟩
theorem witness_EnvClassResult :
    State.reset.frame.flen.toNat < 4 ∧ 4 ≤ kv2.frame.flen.toNat ∧
      kv2.frame.readByte 0 = .ok 0x00 ∧ kv2.frame.readByte 1 = .ok 0x00 ∧
      kv2.frame.readByte 2 = .ok 0x08 ∧ kv2.frame.readByte 3 = .ok 0x00 ∧
      4 ≤ v6.frame.flen.toNat ∧ v6.frame.readByte 0 = .ok 0x00 ∧ v6.frame.readByte 1 = .ok 0x00 ∧
      v6.frame.readByte 2 = .ok 0x86 ∧ v6.frame.readByte 3 = .ok 0xDD := by decide

/-- A view too short for the whole-view check, by one byte: the first clause of every HV statement and of
`PC.HDR`, `CS.COMPUTE`, `CS.VERIFY`. -/
theorem short_vlen : short.frame.vlen < 20 ∧ short.frame.vlen = 19 := by decide
/-- A view of exactly 20 bytes: the second clause. -/
theorem kv2_vlen : 20 ≤ kv2.frame.vlen ∧ kv2.frame.vlen = 20 := by decide

theorem witness_HvVersionResult :
    short.frame.vlen < 20 ∧ 20 ≤ kv2.frame.vlen ∧ kv2.frame.viewByte 0 = .ok 0x45 := by
  decide
theorem witness_HvIhlResult :
    short.frame.vlen < 20 ∧ 20 ≤ kv2.frame.vlen ∧ kv2.frame.viewByte 0 = .ok 0x45 ∧
      5 ≤ (0x45 : Byte).toNat % 16 ∧ 20 ≤ hli.frame.vlen ∧ hli.frame.viewByte 0 = .ok 0x44 ∧
      (0x44 : Byte).toNat % 16 < 5 := by decide
theorem witness_HvDscpResult :
    short.frame.vlen < 20 ∧ 20 ≤ opt.frame.vlen ∧ opt.frame.viewByte 1 = .ok 0xB9 := by
  decide
theorem witness_HvEcnResult :
    short.frame.vlen < 20 ∧ 20 ≤ opt.frame.vlen ∧ opt.frame.viewByte 1 = .ok 0xB9 := by
  decide
theorem witness_HvTotlenResult :
    short.frame.vlen < 20 ∧ 20 ≤ opt.frame.vlen ∧ opt.frame.viewByte 2 = .ok 0x00 ∧
      opt.frame.viewByte 3 = .ok 0x1C := by decide
theorem witness_HvIdentResult :
    short.frame.vlen < 20 ∧ 20 ≤ opt.frame.vlen ∧ opt.frame.viewByte 4 = .ok 0x12 ∧
      opt.frame.viewByte 5 = .ok 0x34 := by decide
theorem witness_HvDfResult :
    short.frame.vlen < 20 ∧ 20 ≤ kv2.frame.vlen ∧ kv2.frame.viewByte 6 = .ok 0x40 := by
  decide
theorem witness_HvMfResult :
    short.frame.vlen < 20 ∧ 20 ≤ opt.frame.vlen ∧ opt.frame.viewByte 6 = .ok 0x20 := by
  decide
theorem witness_HvFragoffResult :
    short.frame.vlen < 20 ∧ 20 ≤ opt.frame.vlen ∧ opt.frame.viewByte 6 = .ok 0x20 ∧
      opt.frame.viewByte 7 = .ok 0x05 := by decide
theorem witness_HvTtlResult :
    short.frame.vlen < 20 ∧ 20 ≤ opt.frame.vlen ∧ opt.frame.viewByte 8 = .ok 0x80 := by
  decide
theorem witness_HvProtonumResult :
    short.frame.vlen < 20 ∧ 20 ≤ opt.frame.vlen ∧ opt.frame.viewByte 9 = .ok 0x06 := by
  decide
theorem witness_HvCsumfldResult :
    short.frame.vlen < 20 ∧ 20 ≤ kv.frame.vlen ∧ kv.frame.viewByte 10 = .ok 0xB8 ∧
      kv.frame.viewByte 11 = .ok 0x61 := by decide
theorem witness_HvSrcResult :
    short.frame.vlen < 20 ∧ 20 ≤ opt.frame.vlen ∧ opt.frame.viewByte 12 = .ok 0xC0 ∧
      opt.frame.viewByte 13 = .ok 0x00 ∧ opt.frame.viewByte 14 = .ok 0x02 ∧
      opt.frame.viewByte 15 = .ok 0x01 := by decide
theorem witness_HvDstResult :
    short.frame.vlen < 20 ∧ 20 ≤ opt.frame.vlen ∧ opt.frame.viewByte 16 = .ok 0xC6 ∧
      opt.frame.viewByte 17 = .ok 0x33 ∧ opt.frame.viewByte 18 = .ok 0x64 ∧
      opt.frame.viewByte 19 = .ok 0x07 := by decide

/-- The three failing clauses of the header check, and the passing one, each at a boundary: 19 view bytes,
nibble 4, nibble 15 in 59 bytes, nibble 5 in 20 bytes. -/
theorem header_clauses :
    short.frame.vlen < 20 ∧
    (20 ≤ hli.frame.vlen ∧ hli.frame.viewByte 0 = .ok 0x44 ∧ (0x44 : Byte).toNat % 16 < 5) ∧
    (20 ≤ max59.frame.vlen ∧ max59.frame.viewByte 0 = .ok 0xFF ∧ 5 ≤ (0xFF : Byte).toNat % 16 ∧
      max59.frame.vlen < (0xFF : Byte).toNat % 16 * 4) ∧
    (20 ≤ kv2.frame.vlen ∧ kv2.frame.viewByte 0 = .ok 0x45 ∧ 5 ≤ (0x45 : Byte).toNat % 16 ∧
      (0x45 : Byte).toNat % 16 * 4 ≤ kv2.frame.vlen) := by decide

theorem witness_HvOptionsResult :
    20 ≤ kv2.frame.vlen ∧ kv2.frame.viewByte 0 = .ok 0x45 ∧ 5 ≤ (0x45 : Byte).toNat % 16 ∧
      (0x45 : Byte).toNat % 16 * 4 ≤ kv2.frame.vlen := header_clauses.2.2.2
theorem witness_CsComputeResult :
    kv2.frame.HasView viewKV2 ∧ viewKV2.length = octet viewKV2 0 % 16 * 4 ∧
      5 ≤ octet viewKV2 0 % 16 := ⟨kv2_view, by decide, by decide⟩
theorem witness_CsVerifyResult :
    opt.frame.HasView viewOPT ∧ viewOPT.length = octet viewOPT 0 % 16 * 4 ∧
      5 ≤ octet viewOPT 0 % 16 := ⟨opt_view, by decide, by decide⟩
theorem witness_CsComputeNResult :
    40 < (41 : Byte).toNat ∧ ((40 : Byte).toNat ≤ 40 ∧ max59.frame.vlen < 20 + (40 : Byte).toNat) ∧
      (3 : Byte).toNat ≤ 40 ∧ oddV.frame.HasView viewODDV ∧ viewODDV.length = 20 + (3 : Byte).toNat :=
  ⟨by decide, by decide, by decide, oddV_view, by decide⟩
theorem witness_CsVerifyNResult :
    40 < (255 : Byte).toNat ∧ ((0 : Byte).toNat ≤ 40 ∧ short.frame.vlen < 20 + (0 : Byte).toNat) ∧
      (0 : Byte).toNat ≤ 40 ∧ kv2.frame.HasView viewKV2 ∧ viewKV2.length = 20 + (0 : Byte).toNat :=
  ⟨by decide, by decide, by decide, kv2_view, by decide⟩
theorem witness_ChecksumWordsArePadded :
    2 * 11 < viewODDV.length ∧ 2 * 11 + 1 = viewODDV.length ∧ 2 * 10 + 1 < viewODDV.length := by
  decide
theorem witness_AccumulatorIsExact : (List.replicate 60 0xFF : List Byte).length ≤ 60 := by decide
theorem witness_TwoFoldsAlwaysSuffice :
    (0xFFFF : Word).toNat < 65536 ∧ 65536 ≤ (0x1FFFF : Word).toNat := by decide
theorem witness_FoldSumClosedForm : viewODDV.length ≤ 60 := by decide
theorem witness_VerifyAcceptsTheComputedField :
    20 ≤ viewKV2.length ∧ viewKV2.length ≤ 60 := by decide
theorem witness_ComputedChecksumVerifies :
    ∃ aux aux',
      kv.frame.HasView viewKV ∧
      kv2.frame.HasView
        ((viewKV.set 10 ((0x26D7 : Half).extractLsb' 8 8)).set 11
          ((0x26D7 : Half).extractLsb' 0 8)) ∧
      viewKV.length = octet viewKV 0 % 16 * 4 ∧ 5 ≤ octet viewKV 0 % 16 ∧
      exec .csCompute kv = .next (kv.answer (.done ((0x26D7 : Half).setWidth 32) aux .zero)) ∧
      (0 : Byte).toNat ≤ 40 ∧ viewKV.length = 20 + (0 : Byte).toNat ∧
      exec (.csComputeN 0) kv =
        .next (kv.answer (.done ((0x26D7 : Half).setWidth 32) aux' .zero)) :=
  ⟨0xD928, 0xD928, kv_view, kv2_view, by decide, by decide, rfl, by decide, by decide, rfl⟩
theorem witness_BitFlipMakesVerifyFail :
    ∃ (s' : State) (aux : Word),
      kv2.frame.HasView viewKV2 ∧ viewKV2[8]? = some 0x40 ∧
      s'.frame.HasView (viewKV2.set 8 (0x40 ^^^ (1#8 <<< 0))) ∧
      (0 : Byte).toNat ≤ 40 ∧ viewKV2.length = 20 + (0 : Byte).toNat ∧
      exec (.csVerifyN 0) kv2 = .next (kv2.answer (.done 1 aux .zero)) ∧
      viewKV2.length = octet viewKV2 0 % 16 * 4 ∧ 5 ≤ octet viewKV2 0 % 16 ∧
      exec .csVerify kv2 = .next (kv2.answer (.done 1 aux .zero)) :=
  ⟨loaded (env4 ++ viewKV2.set 8 0x41), 0xFFFF, kv2_view, by decide,
    Frame.ofBytes_hasView rfl (by decide), by decide, by decide, rfl, by decide, by decide, rfl⟩
/-- The edges of the flipped range: the lowest bit of the last octet, the top bit of octet 0, and the two
sides of the nibble boundary in octet 0 (bit 4 for `CS.VERIFY`, bit 3 for the `.N` form alone). -/
theorem witness_BitFlipMakesVerifyFail_edges :
    viewKV2[19]? = some 0x02 ∧
      (loaded (env4 ++ viewKV2.set 19 0x03)).frame.HasView (viewKV2.set 19 (0x02 ^^^ (1#8 <<< 0))) ∧
    viewKV2[0]? = some 0x45 ∧
      (loaded (env4 ++ viewKV2.set 0 0xC5)).frame.HasView (viewKV2.set 0 (0x45 ^^^ (1#8 <<< 7))) ∧
      (loaded (env4 ++ viewKV2.set 0 0x55)).frame.HasView (viewKV2.set 0 (0x45 ^^^ (1#8 <<< 4))) ∧
      (loaded (env4 ++ viewKV2.set 0 0x4D)).frame.HasView (viewKV2.set 0 (0x45 ^^^ (1#8 <<< 3))) :=
  ⟨by decide, Frame.ofBytes_hasView rfl (by decide), by decide, Frame.ofBytes_hasView rfl (by decide),
    Frame.ofBytes_hasView rfl (by decide), Frame.ofBytes_hasView rfl (by decide)⟩
theorem witness_OddLengthPadsWithZero :
    ∃ s' : State, (3 : Byte).toNat < 40 ∧ (3 : Byte).toNat % 2 = 1 ∧
      viewODDV.length = 20 + (3 : Byte).toNat ∧ oddV.frame.HasView viewODDV ∧
      s'.frame.HasView (viewODDV ++ [0]) :=
  ⟨loaded (env4 ++ (viewODDV ++ [0])), by decide, by decide, by decide, oddV_view,
    Frame.ofBytes_hasView rfl (by decide)⟩
theorem witness_ExplicitLengthMatchesHeaderLength :
    opt.frame.HasView viewOPT ∧ 5 ≤ octet viewOPT 0 % 16 ∧
      viewOPT.length = octet viewOPT 0 % 16 * 4 ∧
      (4 : Byte).toNat = (octet viewOPT 0 % 16 - 5) * 4 :=
  ⟨opt_view, by decide, by decide, by decide⟩
theorem witness_PcHdrResult :
    short.frame.vlen < 20 ∧ 20 ≤ kv2.frame.vlen ∧ kv2.frame.viewByte 9 = .ok 0x11 := by
  decide
theorem witness_ProtocolTableIsTotalAndInjective :
    (0 : Byte) ≠ 1 ∧ (0 : Byte) ≠ 2 ∧ (0 : Byte) ≠ 6 ∧ (0 : Byte) ≠ 17 := by decide
theorem witness_DecSummaryResult_envelope :
    State.reset.frame.flen.toNat < 4 ∧
    (4 ≤ v6.frame.flen.toNat ∧ v6.frame.readByte 2 = .ok 0x86 ∧ v6.frame.readByte 3 = .ok 0xDD ∧
      (0x86 : Byte).toNat * 256 + (0xDD : Byte).toNat ≠ 0x0800) ∧
    (4 ≤ kv2.frame.flen.toNat ∧ kv2.frame.readByte 2 = .ok 0x08 ∧ kv2.frame.readByte 3 = .ok 0x00 ∧
      short.frame.readByte 2 = .ok 0x08 ∧ hli.frame.readByte 2 = .ok 0x08 ∧
      max59.frame.readByte 2 = .ok 0x08 ∧ tl21.frame.readByte 2 = .ok 0x08 ∧
      (0x08 : Byte).toNat * 256 + (0x00 : Byte).toNat = 0x0800) := by decide
theorem witness_DecSummaryResult_header :
    (kv2.frame.HasView viewKV2 ∧ viewKV2.length = octet viewKV2 0 % 16 * 4 ∧
      5 ≤ octet viewKV2 0 % 16 ∧ octet2 viewKV2 2 ≤ kv2.frame.vlen) ∧
    ∃ view : List Byte, tl21.frame.HasView view ∧ view.length = octet view 0 % 16 * 4 ∧
      5 ≤ octet view 0 % 16 ∧ tl21.frame.vlen < octet2 view 2 :=
  ⟨⟨kv2_view, by decide, by decide, by decide⟩, _, tl21_view, by decide, by decide, by decide⟩
theorem witness_SummaryWordsAreTheHeaderWords :
    exec .decSummary kv2 = .next (kv2.answer (.done 0xF 0x411
      ⟨0x45000014, 0x00004000, 0x401126D7, 0x0A000001, 0x0A000002, 0x00001400⟩)) := rfl
theorem witness_SummaryAgreesWithTheAccessors :
    kv2.frame.Loaded ∧ ∃ val aux sum, exec .decSummary kv2 = .next (kv2.answer (.done val aux sum)) :=
  ⟨kv2_loaded, _, _, _, witness_SummaryWordsAreTheHeaderWords⟩
theorem witness_HeaderLengthInvalidRaisers :
    exec .decSummary hli = .next (hli.answer (.failed .headerLengthInvalid)) := rfl
theorem witness_FrameTruncatedRaisers :
    exec .decSummary tl21 = .next (tl21.answer (.failed .frameTruncated)) := rfl
theorem witness_NotIPv4AndIllegalCommandRaisers :
    exec .decSummary v6 = .next (v6.answer (.notIPv4 0x86DD)) ∧ (Instr.csVerifyN 41).wf = false :=
  ⟨rfl, by decide⟩
theorem witness_ResultsStayInTheirFields :
    ∃ val aux sum, exec .csVerify kv2 = .next (kv2.answer (.done val aux sum)) ∧
      Instr.csVerify ≠ .decSummary := ⟨1, 0xFFFF, .zero, rfl, by decide⟩
/-- Two frames that differ in the payload alone (OPT and OPT-PAYFLIP). -/
theorem witness_ResponseDependsOnlyOnTheFootprint :
    let s' := loaded (env4 ++ viewOPT ++ [0xDE, 0x2D, 0xBE, 0xEF])
    opt.frame.flen = s'.frame.flen ∧
      (∀ a ∈ footprint .csVerify opt.frame, opt.frame.readByte a = s'.frame.readByte a) ∧
      exec .csVerify opt = .next (opt.answer (.done 1 0xFFFF .zero)) ∧ Instr.csVerify.wf = true :=
  ⟨by decide, by decide, rfl, rfl⟩
/-- Two frames that differ in the envelope flags alone. -/
theorem witness_EnvelopeFlagsAreUnobservable :
    ∃ s s' : State, s.frame.Loaded ∧ s'.frame.Loaded ∧ s.frame.flen = s'.frame.flen ∧
      (∀ a, 2 ≤ a → s.frame.readByte a = s'.frame.readByte a) := by
  refine ⟨loaded [0x12, 0x34, 0x08, 0x00], loaded [0x00, 0x00, 0x08, 0x00],
    loaded_loaded _ (by decide), loaded_loaded _ (by decide), rfl, fun a ha => ?_⟩
  match a, ha with
  | 2, _ => rfl
  | 3, _ => rfl
  | a + 4, _ => rfl
theorem witness_ResponsesDoNotDependOnOrder :
    ∃ si sj, exec .hvOptions opt = .next si ∧ exec .csVerify opt = .next sj := ⟨_, _, rfl, rfl⟩
theorem witness_RunOfCommandsIsPointwise :
    (kv2.withInbox ([0x1100, 0x0F00, 0x4000].map .issue)).frame.Loaded := kv2_loaded
theorem witness_RunTakesEveryMove :
    ∃ s : State, s.frame.Loaded ∧ s.inbox = [.issue 0x4000, .load frameOPT, .issue 0x1100] ∧
      ∀ m ∈ s.inbox, m.fits = true :=
  ⟨kv2.withInbox [.issue 0x4000, .load frameOPT, .issue 0x1100], kv2_loaded, rfl, by decide⟩

end Sys2Proof.Machine.Tests
end

/-! # Decoding an encoded operation, and the operation behind a command word -/

namespace Sys2Proof

/-- Every operation without an immediate is a row of the format N table, under its own code. -/
theorem mem_formatN_of_imm_none {i : Instr} (h : i.imm = none) : (i.opcode, i) ∈ formatN := by
  cases i with
  | csComputeN n => cases h
  | csVerifyN n => cases h
  | pcMap imm => cases h
  | _ => decide

/-- The table finds each of its rows, and none of its codes is one of format I. -/
theorem formatN_lookup : ∀ row ∈ formatN, formatN.lookup row.1 = some row.2 ∧
    row.1 ≠ 0x22 ∧ row.1 ≠ 0x23 ∧ row.1 ≠ 0x30 := by decide

theorem decode_formatN {op : Byte} {i : Instr} (h : (op, i) ∈ formatN) :
    decode (op ++ (0 : Byte)) = .ok i := by
  obtain ⟨hlookup, h22, h23, h30⟩ := formatN_lookup _ h
  simp only [decode, opField_append, argField_append, if_neg h22, if_neg h23, if_neg h30, hlookup,
    if_pos]

theorem decode_csComputeN {n : Byte} (h : optionsLenLegal n = true) :
    decode ((0x22 : Byte) ++ n) = .ok (.csComputeN n) := by
  simp [decode, h]

theorem decode_csVerifyN {n : Byte} (h : optionsLenLegal n = true) :
    decode ((0x23 : Byte) ++ n) = .ok (.csVerifyN n) := by
  simp [decode, h]

theorem decode_pcMap (imm : Byte) : decode ((0x30 : Byte) ++ imm) = .ok (.pcMap imm) := by
  simp [decode]

/-- The command word of a well-formed operation selects that operation (R60, R65). -/
theorem decode_encode {i : Instr} (h : i.wf = true) : decode (encode i) = .ok i := by
  cases i with
  | csComputeN n => exact decode_csComputeN h
  | csVerifyN n => exact decode_csVerifyN h
  | pcMap imm => exact decode_pcMap imm
  | _ => exact decode_formatN (mem_formatN_of_imm_none rfl)

theorem decodeWord_of_decode {w : Half} {i : Instr} (h : decode w = .ok i) :
    decodeWord w = some i := by
  rw [decodeWord, h]
  rfl

theorem optionsLenLegal_eq_true {n : Byte} : optionsLenLegal n = true ↔ n.toNat ≤ 40 :=
  decide_eq_true_iff

theorem optionsLenLegal_eq_false {n : Byte} : optionsLenLegal n = false ↔ 40 < n.toNat := by
  rw [← Bool.not_eq_true, optionsLenLegal_eq_true, Nat.not_le]

end Sys2Proof

namespace Sys2Proof.Machine

/-- The function of the frame behind a command word, legal or not (R14, R66). -/
def wordOp (w : Half) : Frame → Except Fault Response :=
  match decodeWord w with
  | some i => opOf i
  | none => fun _ => raise .illegalCommand

theorem wordOp_of_decode {w : Half} {i : Instr} (h : decode w = .ok i) : wordOp w = opOf i := by
  rw [wordOp, decodeWord_of_decode h]

/-- A step on an `ISSUE` takes the move and runs the function behind the command word. -/
theorem step_issue {s : State} {w : Half} {rest : List HostMove} (h : s.inbox = .issue w :: rest) :
    step s = execOn (wordOp w) (s.withInbox rest) := by
  simp only [step, h, wordOp]
  cases decodeWord w with
  | some i => exact exec_eq i _
  | none => rfl

theorem step_issue_of_decode {s : State} {w : Half} {rest : List HostMove} {i : Instr}
    (h : s.inbox = .issue w :: rest) (hd : decode w = .ok i) :
    step s = exec i (s.withInbox rest) := by
  rw [step_issue h, wordOp_of_decode hd, exec_eq]

theorem step_issue_of_ok {s : State} {w : Half} {rest : List HostMove} {r : Response}
    (h : s.inbox = .issue w :: rest) (hr : wordOp w s.frame = .ok r) :
    step s = .next ((s.withInbox rest).answer r) := by
  rw [step_issue h]
  exact execOn_of_ok hr

/-! # Every operation answers on a loaded frame -/

/-- The operation answers, and not with `IllegalCommand`. -/
def Answers (x : Except Fault Response) : Prop :=
  ∃ r, x = .ok r ∧ r ≠ .failed .illegalCommand

theorem answers_respond (val aux : Word) : Answers (respond val aux) :=
  ⟨_, rfl, nofun⟩

theorem answers_respondSum (val aux : Word) (sum : SummaryWords) :
    Answers (respondSum val aux sum) := ⟨_, rfl, nofun⟩

theorem answers_notIPv4 (id : Half) : Answers (.ok (.notIPv4 id)) := ⟨_, rfl, nofun⟩

theorem answers_frameTruncated : Answers (raise .frameTruncated) := ⟨_, rfl, nofun⟩

theorem answers_headerLengthInvalid : Answers (raise .headerLengthInvalid) := ⟨_, rfl, nofun⟩

/-- A field that is a function of one view octet. -/
theorem Frame.HasView.bits {f : Frame} {B : List Byte} (h : f.HasView B) {α : Type} {k : Nat}
    (hk : k < B.length) (g : Byte → α) :
    (f.viewByte k >>= fun b => .ok (g b)) = .ok (g (B.getD k 0)) := by
  rw [h.byte hk, except_ok_bind]

/-- On a loaded frame every pair of envelope bytes below `FLEN` reads. -/
theorem Frame.Loaded.memRead16 {f : Frame} (hf : f.Loaded) {a : Nat} (ha : a + 1 < f.flen.toNat)
    (h64 : a + 1 < 64) : ∃ v, f.memRead16 a = .ok v := by
  have := fbSize_ge
  obtain ⟨b0, h0⟩ := hf.readByte (a := a) (by omega) (by omega)
  obtain ⟨b1, h1⟩ := hf.readByte ha (by omega)
  exact ⟨_, Frame.memRead16_of h0 h1⟩

section
variable {f : Frame}

theorem withEnvelope_answers {k : Except Fault Response} (hk : 4 ≤ f.flen.toNat → Answers k) :
    Answers (withEnvelope f k) := by
  rcases Nat.lt_or_ge f.flen.toNat 4 with h | h
  · rw [withEnvelope_short h]; exact answers_frameTruncated
  · rw [withEnvelope_long h]; exact hk h

theorem computeResult_answers {B : List Byte} (hB : f.HasView B) :
    Answers (computeResult f B.length) := by
  rw [computeResult_of hB]
  exact answers_respond _ _

theorem verifyResult_answers {B : List Byte} (hB : f.HasView B) :
    Answers (verifyResult f B.length) := by
  rw [verifyResult_of hB]
  exact answers_respond _ _

/-- An operation that is not well-formed answers `IllegalCommand` on any frame (log entry 8). -/
theorem opOf_illegal {i : Instr} (hi : i.wf = false) : opOf i f = raise .illegalCommand := by
  cases i with
  | csComputeN n => exact withOptionsLen_illegal (optionsLenLegal_eq_false.mp hi)
  | csVerifyN n => exact withOptionsLen_illegal (optionsLenLegal_eq_false.mp hi)
  | _ => cases hi

variable (hf : f.Loaded)
include hf

/-- The view check passes on to an operation that may read the fixed 20 octets of the header. -/
theorem withView_answers {k : Except Fault Response}
    (hk : ∀ B : List Byte, f.HasView B → B.length = 20 → Answers k) : Answers (withView f k) := by
  rcases Nat.lt_or_ge f.vlen 20 with h | h
  · rw [withView_short h]; exact answers_frameTruncated
  · obtain ⟨B, hl, hB⟩ := hf.hasView h (by omega)
    rw [withView_long h]
    exact hk B hB hl

theorem scalar_answers {n : Nat} {field : Frame → Except Fault (BitVec n)}
    (hfield : ∀ B : List Byte, f.HasView B → B.length = 20 → ∃ v, field f = .ok v) :
    Answers (scalar field f) :=
  withView_answers hf fun B hB hl => by
    obtain ⟨v, hv⟩ := hfield B hB hl
    rw [hv, except_ok_bind]
    exact answers_respond _ _

theorem withIhl_answers {k : BitVec 4 → Except Fault Response} (hk : ∀ h, Answers (k h)) :
    Answers (withIhl f k) :=
  withView_answers hf fun B hB hl => by
    rw [Frame.ihl_of (hB.byte (k := 0) (by omega)), except_ok_bind]
    split
    · exact answers_headerLengthInvalid
    · exact hk _

/-- The header check passes on to an operation that may read the whole declared header. -/
theorem withHeader_answers {k : BitVec 4 → Except Fault Response}
    (hk : ∀ (h : BitVec 4) (B : List Byte), f.HasView B → 20 ≤ B.length → headerBytes h = B.length →
      Answers (k h)) : Answers (withHeader f k) := by
  rcases withHeader_cases f k with ⟨-, e⟩ | ⟨h20, _, h0, -⟩ | ⟨b0, -, -, e⟩
  · rw [e]; exact answers_frameTruncated
  · obtain ⟨b, hb⟩ := hf.viewByte (k := 0) (by omega) (by omega)
    cases h0.symm.trans hb
  rcases e with ⟨-, e⟩ | ⟨-, -, e⟩ | ⟨h5, hl, e⟩
  · rw [e]; exact answers_headerLengthInvalid
  · rw [e]; exact answers_frameTruncated
  · obtain ⟨B, hBl, hB⟩ := hf.hasView hl (by omega)
    rw [e]
    exact hk _ B hB (by omega) (by rw [headerBytes_ihlBits, hBl])

/-- The explicit-length check passes on to an operation that may read `20 + n` view octets. -/
theorem withOptionsLen_answers {n : Byte} {k : Nat → Except Fault Response} (hn : n.toNat ≤ 40)
    (hk : ∀ B : List Byte, f.HasView B → Answers (k B.length)) : Answers (withOptionsLen n f k) := by
  rcases Nat.lt_or_ge f.vlen (20 + n.toNat) with h | h
  · rw [withOptionsLen_short hn h]; exact answers_frameTruncated
  · obtain ⟨B, hl, hB⟩ := hf.hasView h (by omega)
    rw [withOptionsLen_long hn h, ← hl]
    exact hk B hB

theorem envClass_answers : Answers (envClass f) :=
  withEnvelope_answers fun h4 => by
    obtain ⟨flags, hflags⟩ := hf.memRead16 (a := 0) (by omega) (by omega)
    obtain ⟨id, hid⟩ := hf.memRead16 (a := 2) (by omega) (by omega)
    rw [hflags, Frame.linkId, hid, except_ok_bind, except_ok_bind]
    exact answers_respond _ _

theorem pcHdr_answers : Answers (pcHdr f) :=
  withView_answers hf fun B hB hl => by
    rw [Frame.protocolNumber, hB.byte (k := 9) (by omega), except_ok_bind]
    exact answers_respond _ _

theorem decSummary_answers : Answers (decSummary f) := by
  rcases Nat.lt_or_ge f.flen.toNat 4 with h4 | h4
  · rw [decSummary_short h4]; exact answers_frameTruncated
  obtain ⟨id, hid⟩ : ∃ id, f.linkId = .ok id := hf.memRead16 (by omega) (by omega)
  by_cases hip : id = 0x0800
  · rw [decSummary_ipv4 h4 (hip ▸ hid)]
    refine withHeader_answers hf fun h B hB hl hh => ?_
    rw [Frame.totalLength, hB.be16 (k := 2) (by omega), except_ok_bind]
    split
    · exact answers_frameTruncated
    · rw [summaryResult_of hB hl hh]; exact answers_respondSum _ _ _
  · rw [decSummary_other h4 hid hip]; exact answers_notIPv4 id

/-- Every well-formed operation answers on a loaded frame, and not with `IllegalCommand`. -/
theorem opOf_answers {i : Instr} (hi : i.wf = true) : Answers (opOf i f) := by
  cases i with
  | envClass => exact envClass_answers hf
  | hvVersion =>
    exact scalar_answers hf fun B hB hl => ⟨_, hB.bits (k := 0) (by omega) versionBits⟩
  | hvIhl => exact withIhl_answers hf fun h => answers_respond _ _
  | hvDscp => exact scalar_answers hf fun B hB hl => ⟨_, hB.bits (k := 1) (by omega) dscpBits⟩
  | hvEcn => exact scalar_answers hf fun B hB hl => ⟨_, hB.bits (k := 1) (by omega) ecnBits⟩
  | hvTotlen => exact scalar_answers hf fun B hB hl => ⟨_, hB.be16 (k := 2) (by omega)⟩
  | hvIdent => exact scalar_answers hf fun B hB hl => ⟨_, hB.be16 (k := 4) (by omega)⟩
  | hvDf => exact scalar_answers hf fun B hB hl => ⟨_, hB.bits (k := 6) (by omega) dfBit⟩
  | hvMf => exact scalar_answers hf fun B hB hl => ⟨_, hB.bits (k := 6) (by omega) mfBit⟩
  | hvFragoff =>
    refine scalar_answers hf fun B hB hl => ⟨fragoffBits (B.getD 6 0) (B.getD 7 0), ?_⟩
    rw [Frame.fragmentOffset, hB.byte (k := 6) (by omega), except_ok_bind]
    exact hB.bits (k := 7) (by omega) _
  | hvTtl => exact scalar_answers hf fun B hB hl => ⟨_, hB.byte (k := 8) (by omega)⟩
  | hvProtonum => exact scalar_answers hf fun B hB hl => ⟨_, hB.byte (k := 9) (by omega)⟩
  | hvCsumfld => exact scalar_answers hf fun B hB hl => ⟨_, hB.be16 (k := 10) (by omega)⟩
  | hvSrc => exact scalar_answers hf fun B hB hl => ⟨_, hB.be32 (k := 12) (by omega)⟩
  | hvDst => exact scalar_answers hf fun B hB hl => ⟨_, hB.be32 (k := 16) (by omega)⟩
  | hvOptions => exact withHeader_answers hf fun h B hB hl hh => answers_respond _ _
  | csCompute => exact withHeader_answers hf fun h B hB hl hh => hh ▸ computeResult_answers hB
  | csVerify => exact withHeader_answers hf fun h B hB hl hh => hh ▸ verifyResult_answers hB
  | csComputeN n =>
    exact withOptionsLen_answers hf (optionsLenLegal_eq_true.mp hi) fun B => computeResult_answers
  | csVerifyN n =>
    exact withOptionsLen_answers hf (optionsLenLegal_eq_true.mp hi) fun B => verifyResult_answers
  | pcMap imm => exact answers_respond _ _
  | pcHdr => exact pcHdr_answers hf
  | decSummary => exact decSummary_answers hf

/-- On a loaded frame every operation answers, with `IllegalCommand` exactly when not well-formed. -/
theorem opOf_loaded (i : Instr) :
    ∃ r, opOf i f = .ok r ∧ (r = .failed .illegalCommand ↔ i.wf = false) := by
  cases hi : i.wf with
  | true =>
    obtain ⟨r, hr, hne⟩ := opOf_answers hf hi
    exact ⟨r, hr, by simp [hne]⟩
  | false => exact ⟨_, opOf_illegal hi, by simp⟩

/-- On a loaded frame every command word is answered. -/
theorem wordOp_loaded (w : Half) : ∃ r, wordOp w f = .ok r := by
  unfold wordOp
  cases decodeWord w with
  | some i =>
    obtain ⟨r, hr, -⟩ := opOf_loaded hf i
    exact ⟨r, hr⟩
  | none => exact ⟨_, rfl⟩

end

/-! # A run of commands -/

/-- When `resp` names the response to each word on the frame, a run of words gives those responses. -/
theorem run_issues {resp : Half → Response} (ws : List Half) {s : State}
    (hresp : ∀ w, wordOp w s.frame = .ok (resp w)) (h : s.inbox = ws.map .issue) :
    Host.Core.run Sys2Proof.core ws.length s =
      .next { frame := s.frame, inbox := [], out := (ws.map resp).reverse ++ s.out } := by
  induction ws generalizing s with
  | nil =>
    cases s
    cases h
    rfl
  | cons w ws ih =>
    have hstep := step_issue_of_ok h (hresp w)
    rw [List.length_cons, run_of_next _ hstep, ih (by simpa using hresp) rfl]
    simp

/-! # The obligations -/

/-- Settles O12: each thing a step can do leaves the frame alone or makes it anew from a `LOAD`. -/
theorem stepKeepsTheFrameLoaded : Obligations.StepKeepsTheFrameLoaded := by
  intro s t hs h
  rcases step_cases h with ⟨-, rfl⟩ | ⟨bytes, rest, -, hlen, rfl⟩ | ⟨w, rest, i, r, -, -, -, rfl⟩ |
    ⟨w, rest, -, -, rfl⟩
  · exact hs
  · exact Frame.ofBytes_loaded hlen
  · exact hs
  · exact hs

/-- Settles O14: every check passes on to reads that a loaded frame answers. -/
theorem everyOperationAnswers : Obligations.EveryOperationAnswers := by
  intro i s hs
  obtain ⟨r, hr, hill⟩ := opOf_loaded hs i
  exact ⟨r, by rw [exec_eq, execOn_of_ok hr], hill⟩

/-- Settles O15: every operation is a function of the frame, and its answer is all that is added. -/
theorem operationsChangeOnlyTheResponse : Obligations.OperationsChangeOnlyTheResponse := by
  intro i s t h
  rw [exec_eq] at h
  obtain ⟨r, -, rfl⟩ := execOn_next.mp h
  exact ⟨rfl, fun _ => rfl, fun _ => rfl, rfl, rfl, r, rfl⟩

/-- Settles O59, by induction on the words: the response to a word depends on the frame alone. -/
theorem runOfCommandsIsPointwise : Obligations.RunOfCommandsIsPointwise := by
  intro s ws hs hinbox
  choose resp hresp using wordOp_loaded hs
  refine ⟨ws.map resp, List.length_map _, run_issues ws hresp hinbox, fun k w r hw hr out => ?_⟩
  obtain rfl : resp w = r := by simpa [hw] using hr
  exact step_issue_of_ok rfl (hresp w)

/-- Settles O6: a step runs the function behind the word, and `encode` gives a word that decodes. -/
theorem stepRunsTheIssuedOperation : Obligations.StepRunsTheIssuedOperation := by
  refine ⟨fun s w rest i => step_issue_of_decode, fun s i hi => ?_⟩
  rw [step_issue_of_decode (State.issueNext_inbox s _) (decode_encode hi), State.issueNext_withInbox]

end Sys2Proof.Machine

/-! # The state: reset, `LOAD`, and safety from a loaded frame -/

namespace Sys2Proof.Machine

/-- Below `FLEN` and below `FB_SIZE` the frame a `LOAD` leaves reads as the bytes loaded (R33). -/
theorem Frame.ofBytes_readByte_inside {bytes : List Byte} (hlen : bytes.length < 2 ^ 32) {i : Nat}
    (hi : i < bytes.length) (hs : i < Config.fbSize) :
    (Frame.ofBytes bytes).readByte i = .ok bytes[i] := by
  rw [Frame.readByte_ok, Frame.ofBytes_flen hlen, Frame.ofBytes_read, if_pos hs]
  exact ⟨hi, List.getElem?_eq_getElem hi⟩

/-- A byte the frame does not list is unspecified (R32). -/
theorem Frame.readByte_of_read_none {f : Frame} {a : Nat} (h : Memory.read f.fb a = none) :
    f.readByte a = .error (.unspecifiedFrameByte a) := by
  rw [Frame.readByte, h, ite_self]

/-- Every other offset of the frame a `LOAD` leaves is unspecified (R33; log entry 5). -/
theorem Frame.ofBytes_readByte_outside {bytes : List Byte} {i : Nat}
    (hi : bytes.length ≤ i ∨ Config.fbSize ≤ i) :
    (Frame.ofBytes bytes).readByte i = .error (.unspecifiedFrameByte i) := by
  apply Frame.readByte_of_read_none
  rw [Frame.ofBytes_read]
  rcases hi with hi | hi
  · rw [List.getElem?_eq_none hi, ite_self]
  · exact if_neg (Nat.not_lt.mpr hi)

/-- A `LOAD` whose length `FLEN` can hold replaces the frame and takes the move. -/
theorem step_load_fits {s : State} {bytes : List Byte} {rest : List HostMove}
    (h : s.inbox = .load bytes :: rest) (hlen : bytes.length < 2 ^ 32) :
    step s = .next ((s.withInbox rest).withFrame (.ofBytes bytes)) := by
  rw [step_load h, loadFrame_fits hlen]

/-- A `LOAD` whose length `FLEN` cannot hold is refused (log entry 6). -/
theorem step_load_tooLong {s : State} {bytes : List Byte} {rest : List HostMove}
    (h : s.inbox = .load bytes :: rest) (hlen : 2 ^ 32 ≤ bytes.length) :
    step s = .refused (.frameTooLong bytes.length) := by
  rw [step_load h, loadFrame_tooLong hlen]

theorem step_idle {s : State} (h : s.inbox = []) : step s = .next s := by
  simp only [step, h, idle]

/-- Everything a step can do on a loaded frame: a next state, or the refusal of an over-long `LOAD`.
There is no fault, since every command word is answered there. -/
theorem step_loaded_cases {s : State} (hs : s.frame.Loaded) :
    (∃ t, step s = .next t) ∨
    ∃ bytes rest, s.inbox = .load bytes :: rest ∧ 2 ^ 32 ≤ bytes.length ∧
      step s = .refused (.frameTooLong bytes.length) := by
  match h : s.inbox with
  | [] => exact .inl ⟨s, step_idle h⟩
  | .issue w :: rest =>
    obtain ⟨r, hr⟩ := wordOp_loaded hs w
    exact .inl ⟨_, step_issue_of_ok h hr⟩
  | .load bytes :: rest =>
    rcases Nat.lt_or_ge bytes.length (2 ^ 32) with hlen | hlen
    · exact .inl ⟨_, step_load_fits h hlen⟩
    · exact .inr ⟨bytes, rest, rfl, hlen, step_load_tooLong h hlen⟩

/-- No run from a loaded frame faults: the frame stays loaded as long as the run goes on. -/
theorem safeRun_of_loaded {s : State} (hs : s.frame.Loaded) : SafeRun s := by
  intro k e
  induction k generalizing s with
  | zero => rw [run_zero]; nofun
  | succ k ih =>
    rcases step_loaded_cases hs with ⟨t, ht⟩ | ⟨_, _, -, -, hr⟩
    · rw [run_of_next k ht]
      exact ih (stepKeepsTheFrameLoaded s t hs ht)
    · rw [run_of_refused k hr]
      nofun

/-- Settles O7: the step's next state is the state with the frame of the bytes loaded, whose every
offset reads as its place in the bytes says. -/
theorem loadReplacesTheFrame : Obligations.LoadReplacesTheFrame := by
  intro s bytes rest h
  refine ⟨fun hlen => ⟨_, step_load_fits h hlen, ?_, ?_, ?_, rfl, rfl⟩, step_load_tooLong h⟩
  · exact Frame.ofBytes_flen hlen
  · exact fun i hi hs => Frame.ofBytes_readByte_inside hlen hi hs
  · exact fun i hi => Frame.ofBytes_readByte_outside hi

/-- Settles O13, by induction on the number of steps with the invariant of O12. -/
theorem loadedFrameNeverFaults : Obligations.LoadedFrameNeverFaults := by
  intro s hs
  refine ⟨safeRun_of_loaded hs, fun r hr => ?_⟩
  rcases step_loaded_cases hs with ⟨t, ht⟩ | ⟨bytes, rest, h, hlen, href⟩
  · cases ht.symm.trans hr
  · cases href.symm.trans hr
    exact ⟨bytes, rest, h, hlen, rfl⟩

/-- Settles O11: nothing is listed after reset, and no offset is below `FLEN`, which is 0. -/
theorem resetFrameIsLoaded : Obligations.ResetFrameIsLoaded where
  canonical := Memory.wf_reset
  inside a _ hb := nomatch (Memory.read_nil a).symm.trans hb
  present a ha _ := absurd ha (Nat.not_lt_zero a)

end Sys2Proof.Machine

/-! # Responses and the footprint (R46) -/

namespace Sys2Proof.Machine

section
variable {f g : Frame}

theorem four_mem_headerOffsets (f : Frame) : 4 ∈ headerOffsets f := by
  unfold headerOffsets
  split <;> simp

/-- The header that the nibble declares is in the footprint. -/
theorem mem_headerOffsets {b0 : Byte} {k : Nat} (h0 : f.viewByte 0 = .ok b0)
    (hk : k < b0.toNat % 16 * 4) : 4 + k ∈ headerOffsets f := by
  simp only [headerOffsets, h0]
  exact List.mem_cons_of_mem _ (List.mem_map_of_mem (List.mem_range.mpr hk))

/-- A nibble declares at most 60 bytes, from offset 4 on. -/
theorem headerOffsets_lt {a : Nat} (ha : a ∈ headerOffsets f) : a < 64 := by
  unfold headerOffsets at ha
  split at ha
  · simp only [List.mem_cons, List.mem_map, List.mem_range] at ha
    omega
  · simp only [List.mem_singleton] at ha
    omega

theorem footprint_lt {i : Instr} (hi : i.wf = true) {a : Nat} (ha : a ∈ footprint i f) : a < 64 := by
  cases i with
  | csCompute | csVerify => exact headerOffsets_lt ha
  | csComputeN n | csVerifyN n =>
    have hn := optionsLenLegal_eq_true.mp hi
    obtain ⟨k, hk, rfl⟩ := List.mem_map.mp ha
    have := List.mem_range.mp hk
    omega
  | pcMap imm => cases ha
  | decSummary =>
    rcases List.mem_append.mp ha with ha | ha
    · simp only [List.mem_cons, List.not_mem_nil, or_false] at ha
      omega
    · exact headerOffsets_lt ha
  | _ =>
    simp only [footprint, List.mem_cons, List.not_mem_nil, or_false] at ha
    omega

theorem computeResult_congr {n : Nat} (h : ∀ k, k < n → f.viewByte k = g.viewByte k) :
    computeResult f n = computeResult g n := by
  rw [computeResult, computeResult, Frame.foldSum_congr h]

theorem verifyResult_congr {n : Nat} (h : ∀ k, k < n → f.viewByte k = g.viewByte k) :
    verifyResult f n = verifyResult g n := by
  rw [verifyResult, verifyResult, Frame.foldSum_congr h]

variable (hl : f.flen = g.flen)
include hl

theorem withEnvelope_congr {k k' : Except Fault Response} (hk : k = k') :
    withEnvelope f k = withEnvelope g k' := by
  rw [withEnvelope, withEnvelope, hl, hk]

theorem withViewOf_congr {n : Nat} {k k' : Except Fault Response} (hk : k = k') :
    withViewOf n f k = withViewOf n g k' := by
  rw [withViewOf, withViewOf, Frame.vlen_congr hl, hk]

theorem withOptionsLen_congr {n : Byte} {k k' : Nat → Except Fault Response}
    (hk : k (20 + n.toNat) = k' (20 + n.toNat)) : withOptionsLen n f k = withOptionsLen n g k' := by
  rw [withOptionsLen, withOptionsLen, withViewOf_congr hl hk]

theorem envClass_congr (h : ∀ a, a < 4 → f.readByte a = g.readByte a) : envClass f = envClass g := by
  refine withEnvelope_congr hl ?_
  rw [Frame.linkId, Frame.linkId, Frame.memRead16_congr (h 0 (by omega)) (h 1 (by omega)),
    Frame.memRead16_congr (h 2 (by omega)) (h 3 (by omega))]

/-- Two frames of one length that agree on an operation's footprint give it the same answer. -/
theorem opOf_congr {i : Instr} (h : ∀ a ∈ footprint i f, f.readByte a = g.readByte a) :
    opOf i f = opOf i g := by
  have hv (k : Nat) (hk : 4 + k ∈ footprint i f) : f.viewByte k = g.viewByte k := h _ hk
  cases i with
  | envClass =>
    exact envClass_congr hl fun a ha => h a (by simp only [footprint, List.mem_cons]; omega)
  | hvVersion =>
    exact scalar_congr hl (by rw [Frame.version, Frame.version, hv 0 (by simp [footprint])])
  | hvIhl =>
    refine withViewOf_congr hl ?_
    rw [Frame.ihl, Frame.ihl, hv 0 (by simp [footprint])]
  | hvDscp => exact scalar_congr hl (by rw [Frame.dscp, Frame.dscp, hv 1 (by simp [footprint])])
  | hvEcn => exact scalar_congr hl (by rw [Frame.ecn, Frame.ecn, hv 1 (by simp [footprint])])
  | hvDf =>
    exact scalar_congr hl (by
      rw [Frame.dontFragment, Frame.dontFragment, hv 6 (by simp [footprint])])
  | hvMf =>
    exact scalar_congr hl (by
      rw [Frame.moreFragments, Frame.moreFragments, hv 6 (by simp [footprint])])
  | hvFragoff =>
    exact scalar_congr hl (by
      rw [Frame.fragmentOffset, Frame.fragmentOffset, hv 6 (by simp [footprint]),
        hv 7 (by simp [footprint])])
  | hvTotlen | hvIdent | hvCsumfld =>
    exact scalar_congr hl
      (Frame.memRead16_congr (h _ (by simp [footprint])) (h _ (by simp [footprint])))
  | hvTtl | hvProtonum => exact scalar_congr hl (h _ (by simp [footprint]))
  | hvSrc | hvDst =>
    exact scalar_congr hl
      (Frame.memRead32_congr (h _ (by simp [footprint])) (h _ (by simp [footprint]))
        (h _ (by simp [footprint])) (h _ (by simp [footprint])))
  | pcHdr =>
    refine withViewOf_congr hl ?_
    rw [Frame.protocolNumber, Frame.protocolNumber, hv 9 (by simp [footprint])]
  | hvOptions => exact withHeader_congr hl (hv 0 (by simp [footprint])) fun _ _ _ _ => rfl
  | csCompute =>
    exact withHeader_congr hl (hv 0 (four_mem_headerOffsets f)) fun b0 h0 _ _ =>
      computeResult_congr fun k hk => hv k (mem_headerOffsets h0 (by simpa using hk))
  | csVerify =>
    exact withHeader_congr hl (hv 0 (four_mem_headerOffsets f)) fun b0 h0 _ _ =>
      verifyResult_congr fun k hk => hv k (mem_headerOffsets h0 (by simpa using hk))
  | csComputeN n =>
    exact withOptionsLen_congr hl (computeResult_congr fun k hk =>
      hv k (List.mem_map_of_mem (List.mem_range.mpr hk)))
  | csVerifyN n =>
    exact withOptionsLen_congr hl (verifyResult_congr fun k hk =>
      hv k (List.mem_map_of_mem (List.mem_range.mpr hk)))
  | pcMap imm => rfl
  | decSummary =>
    have hm {a : Nat} (ha : a ∈ headerOffsets f) : a ∈ footprint .decSummary f :=
      List.mem_append_right _ ha
    exact decSummary_congr hl
      (Frame.memRead16_congr (h 2 (by simp [footprint])) (h 3 (by simp [footprint])))
      (hv 0 (hm (four_mem_headerOffsets f)))
      fun b0 h0 k hk => hv k (hm (mem_headerOffsets h0 hk))

end

/-- Settles O56: the function behind an operation gives one answer on frames that agree on its
footprint, and a footprint ends before offset 64. -/
theorem responseDependsOnlyOnTheFootprint : Obligations.ResponseDependsOnlyOnTheFootprint := by
  intro i s s'
  refine ⟨fun hl h r hr => ?_, fun hi a => footprint_lt hi⟩
  rw [exec_eq, execOn_answer] at hr ⊢
  rw [← opOf_congr hl h, hr]

end Sys2Proof.Machine

/-! # Answers without a result (R171, R175): what ends an operation with a status -/

namespace Sys2Proof.Machine

/-- The response is an error status or `NotIPv4`: it carries no result. -/
def Response.NoResult (r : Response) : Prop := ∀ val aux sum, r ≠ .done val aux sum

theorem Response.noResult_failed (kind : ErrorKind) : (Response.failed kind).NoResult := nofun

theorem Response.noResult_notIPv4 (id : Half) : (Response.notIPv4 id).NoResult := nofun

/-- The checks of the view and of the nibble end the operation with `r` (R45, R94). -/
def IhlCheckEnds (f : Frame) (r : Response) : Prop :=
  (f.vlen < 20 ∧ r = .failed .frameTruncated) ∨
  (20 ≤ f.vlen ∧ ∃ b0, f.viewByte 0 = .ok b0 ∧ b0.toNat % 16 < 5 ∧
    r = .failed .headerLengthInvalid)

/-- Those checks, or the check that the header fits, end the operation with `r` (R45). -/
def HeaderCheckEnds (f : Frame) (r : Response) : Prop :=
  IhlCheckEnds f r ∨
  (20 ≤ f.vlen ∧ ∃ b0, f.viewByte 0 = .ok b0 ∧ 5 ≤ b0.toNat % 16 ∧
    f.vlen < b0.toNat % 16 * 4 ∧ r = .failed .frameTruncated)

/-- The header is valid and fits, and the check of total_length ends `DEC.SUMMARY` with `r` (R161). -/
def TotalLengthCheckEnds (f : Frame) (r : Response) : Prop :=
  ∃ b0 b2 b3 : Byte, f.viewByte 0 = .ok b0 ∧ f.viewByte 2 = .ok b2 ∧ f.viewByte 3 = .ok b3 ∧
    5 ≤ b0.toNat % 16 ∧ b0.toNat % 16 * 4 ≤ f.vlen ∧ f.vlen < b2.toNat * 256 + b3.toNat ∧
    r = .failed .frameTruncated

/-- What ends each operation with `r`, an answer without a result. -/
def EndsWithoutResult (f : Frame) (r : Response) : Instr → Prop
  | .envClass => f.flen.toNat < 4 ∧ r = .failed .frameTruncated
  | .hvVersion | .hvDscp | .hvEcn | .hvTotlen | .hvIdent | .hvDf | .hvMf | .hvFragoff | .hvTtl
  | .hvProtonum | .hvCsumfld | .hvSrc | .hvDst | .pcHdr =>
    f.vlen < 20 ∧ r = .failed .frameTruncated
  | .hvIhl => IhlCheckEnds f r
  | .hvOptions | .csCompute | .csVerify => HeaderCheckEnds f r
  | .csComputeN n | .csVerifyN n =>
    (40 < n.toNat ∧ r = .failed .illegalCommand) ∨
    (n.toNat ≤ 40 ∧ f.vlen < 20 + n.toNat ∧ r = .failed .frameTruncated)
  | .pcMap _ => False
  | .decSummary =>
    (f.flen.toNat < 4 ∧ r = .failed .frameTruncated) ∨
    (∃ id, f.linkId = .ok id ∧ id ≠ 0x0800 ∧ r = .notIPv4 id) ∨
    (f.linkId = .ok 0x0800 ∧ (HeaderCheckEnds f r ∨ TotalLengthCheckEnds f r))

section
variable {f : Frame} {r : Response}

theorem raise_eq_ok {kind : ErrorKind} : raise kind = .ok r ↔ r = .failed kind :=
  ⟨fun h => (Except.ok.inj h).symm, fun h => h ▸ rfl⟩

theorem bind_ne_ok {α : Type} {x : Except Fault α} {k : α → Except Fault Response}
    (hk : ∀ a, k a ≠ .ok r) : (x >>= k) ≠ .ok r := fun h =>
  let ⟨a, _, ha⟩ := except_bind_ok h
  hk a ha

/-- The link identifier stands in the envelope, so the frame holds the envelope. -/
theorem Frame.le_flen_of_linkId {id : Half} (h : f.linkId = .ok id) : 4 ≤ f.flen.toNat := by
  obtain ⟨-, b1, -, h1, -⟩ := Frame.memRead16_ok h
  exact (Frame.readByte_ok.mp h1).1

theorem Frame.totalLength_eq_ok {v : Half} : f.totalLength = .ok v ↔
    ∃ b2 b3, f.viewByte 2 = .ok b2 ∧ f.viewByte 3 = .ok b3 ∧ v = b2 ++ b3 :=
  ⟨Frame.memRead16_ok, fun ⟨_, _, h2, h3, hv⟩ => hv ▸ Frame.memRead16_of h2 h3⟩

theorem withEnvelope_eq_ok {k : Except Fault Response} : withEnvelope f k = .ok r ↔
    (f.flen.toNat < 4 ∧ r = .failed .frameTruncated) ∨ (4 ≤ f.flen.toNat ∧ k = .ok r) := by
  rcases Nat.lt_or_ge f.flen.toNat 4 with h | h
  · simp [h, raise_eq_ok, Nat.not_le.mpr h]
  · simp [h, Nat.not_lt.mpr h]

theorem withView_eq_ok {k : Except Fault Response} : withView f k = .ok r ↔
    (f.vlen < 20 ∧ r = .failed .frameTruncated) ∨ (20 ≤ f.vlen ∧ k = .ok r) := by
  rcases Nat.lt_or_ge f.vlen 20 with h | h
  · simp [h, raise_eq_ok, Nat.not_le.mpr h]
  · simp [h, Nat.not_lt.mpr h]

theorem withIhl_eq_ok {k : BitVec 4 → Except Fault Response} : withIhl f k = .ok r ↔
    IhlCheckEnds f r ∨ (20 ≤ f.vlen ∧ ∃ b0, f.viewByte 0 = .ok b0 ∧ 5 ≤ b0.toNat % 16 ∧
      k (ihlBits b0) = .ok r) := by
  rw [withIhl, withView_eq_ok, IhlCheckEnds, or_assoc, ← and_or_left]
  cases h0 : f.viewByte 0 with
  | error e => simp [Frame.ihl, h0]
  | ok b0 =>
    rcases Nat.lt_or_ge (b0.toNat % 16) 5 with h5 | h5
    · simp [Frame.ihl_of h0, raise_eq_ok, h5, Nat.not_le.mpr h5]
    · simp [Frame.ihl_of h0, h5, Nat.not_lt.mpr h5]

theorem withHeader_eq_ok {k : BitVec 4 → Except Fault Response} : withHeader f k = .ok r ↔
    HeaderCheckEnds f r ∨ ∃ b0, f.viewByte 0 = .ok b0 ∧ 5 ≤ b0.toNat % 16 ∧
      b0.toNat % 16 * 4 ≤ f.vlen ∧ k (ihlBits b0) = .ok r := by
  rw [withHeader, withIhl_eq_ok, HeaderCheckEnds, or_assoc]
  refine or_congr_right ?_
  cases h0 : f.viewByte 0 with
  | error e => simp
  | ok b0 =>
    rcases Nat.lt_or_ge f.vlen (b0.toNat % 16 * 4) with hl | hl
    · simp [raise_eq_ok, hl, Nat.not_le.mpr hl]
    · simp [hl, Nat.not_lt.mpr hl]
      omega

theorem withOptionsLen_eq_ok {n : Byte} {k : Nat → Except Fault Response} :
    withOptionsLen n f k = .ok r ↔
      (40 < n.toNat ∧ r = .failed .illegalCommand) ∨
      (n.toNat ≤ 40 ∧ f.vlen < 20 + n.toNat ∧ r = .failed .frameTruncated) ∨
      (n.toNat ≤ 40 ∧ 20 + n.toNat ≤ f.vlen ∧ k (20 + n.toNat) = .ok r) := by
  rcases Nat.lt_or_ge 40 n.toNat with h | h
  · simp [withOptionsLen_illegal h, raise_eq_ok, h, Nat.not_le.mpr h]
  rcases Nat.lt_or_ge f.vlen (20 + n.toNat) with hl | hl
  · simp [withOptionsLen_short h hl, raise_eq_ok, h, hl, Nat.not_lt.mpr h, Nat.not_le.mpr hl]
  · simp [withOptionsLen_long h hl, h, hl, Nat.not_lt.mpr h, Nat.not_lt.mpr hl]

variable (hr : r.NoResult)
include hr

theorem Response.NoResult.respond_ne (val aux : Word) : respond val aux ≠ .ok r := fun h =>
  hr _ _ _ (Except.ok.inj h).symm

theorem Response.NoResult.respondSum_ne (val aux : Word) (sum : SummaryWords) :
    respondSum val aux sum ≠ .ok r := fun h => hr _ _ _ (Except.ok.inj h).symm

theorem Response.NoResult.computeResult_ne (n : Nat) : computeResult f n ≠ .ok r :=
  bind_ne_ok fun _ => hr.respond_ne _ _

theorem Response.NoResult.verifyResult_ne (n : Nat) : verifyResult f n ≠ .ok r :=
  bind_ne_ok fun _ => hr.respond_ne _ _

theorem Response.NoResult.summaryResult_ne (h : BitVec 4) (totalLength : Half) :
    summaryResult f h totalLength ≠ .ok r :=
  bind_ne_ok fun _ => bind_ne_ok fun _ => hr.respondSum_ne _ _ _

theorem scalar_eq_ok {n : Nat} {field : Frame → Except Fault (BitVec n)} :
    scalar field f = .ok r ↔ f.vlen < 20 ∧ r = .failed .frameTruncated :=
  withView_eq_ok.trans (or_iff_left fun ⟨_, h⟩ => bind_ne_ok (fun _ => hr.respond_ne _ _) h)

theorem decSummary_ipv4_eq_ok (hid : f.linkId = .ok 0x0800) :
    decSummary f = .ok r ↔ HeaderCheckEnds f r ∨ TotalLengthCheckEnds f r := by
  rw [decSummary_ipv4 (Frame.le_flen_of_linkId hid) hid, withHeader_eq_ok]
  refine or_congr_right ⟨fun ⟨b0, h0, h5, hl, h⟩ => ?_,
    fun ⟨b0, b2, b3, h0, h2, h3, h5, hl, ht, e⟩ => ?_⟩
  · obtain ⟨tl, htl, h⟩ := except_bind_ok h
    obtain ⟨b2, b3, h2, h3, rfl⟩ := Frame.totalLength_eq_ok.mp htl
    rw [toNat_append_add] at h
    split at h
    · next ht => exact ⟨b0, b2, b3, h0, h2, h3, h5, hl, ht, raise_eq_ok.mp h⟩
    · cases hr.summaryResult_ne _ _ h
  · refine ⟨b0, h0, h5, hl, ?_⟩
    rw [Frame.totalLength_eq_ok.mpr ⟨b2, b3, h2, h3, rfl⟩, except_ok_bind,
      if_pos (ht.trans_eq (toNat_append_add b2 b3).symm), e, raise]

/-- The flow of R161 as far as it gives no result: envelope, route, header, total_length. -/
theorem decSummary_eq_ok : decSummary f = .ok r ↔ EndsWithoutResult f r .decSummary := by
  unfold EndsWithoutResult
  rcases Nat.lt_or_ge f.flen.toNat 4 with h4 | h4
  · have hid (id : Half) : f.linkId ≠ .ok id := fun h =>
      absurd (Frame.le_flen_of_linkId h) (Nat.not_le.mpr h4)
    simp [decSummary_short h4, raise_eq_ok, h4, hid]
  cases hid : f.linkId with
  | error e => simp [decSummary, hid, h4, Nat.not_lt.mpr h4]
  | ok id =>
    by_cases hip : id = 0x0800#16
    · subst hip
      simp [decSummary_ipv4_eq_ok hr hid, Nat.not_lt.mpr h4]
    · simp [decSummary_other h4 hid hip, Nat.not_lt.mpr h4, hip, @eq_comm _ (Response.notIPv4 id)]

/-- Past its checks an operation gives a result, so one without a result comes from a check, or from
the route of `DEC.SUMMARY`. -/
theorem opOf_eq_ok {i : Instr} : opOf i f = .ok r ↔ EndsWithoutResult f r i := by
  cases i with
  | envClass =>
    exact withEnvelope_eq_ok.trans (or_iff_left fun ⟨_, h⟩ =>
      bind_ne_ok (fun _ => bind_ne_ok fun _ => hr.respond_ne _ _) h)
  | hvIhl =>
    exact withIhl_eq_ok.trans (or_iff_left fun ⟨_, _, _, _, h⟩ => hr.respond_ne _ _ h)
  | hvOptions =>
    exact withHeader_eq_ok.trans (or_iff_left fun ⟨_, _, _, _, h⟩ => hr.respond_ne _ _ h)
  | csCompute =>
    exact withHeader_eq_ok.trans (or_iff_left fun ⟨_, _, _, _, h⟩ => hr.computeResult_ne _ h)
  | csVerify =>
    exact withHeader_eq_ok.trans (or_iff_left fun ⟨_, _, _, _, h⟩ => hr.verifyResult_ne _ h)
  | csComputeN n =>
    exact withOptionsLen_eq_ok.trans (or_congr_right (or_iff_left fun ⟨_, _, h⟩ =>
      hr.computeResult_ne _ h))
  | csVerifyN n =>
    exact withOptionsLen_eq_ok.trans (or_congr_right (or_iff_left fun ⟨_, _, h⟩ =>
      hr.verifyResult_ne _ h))
  | pcMap imm => exact iff_false_intro (hr.respond_ne _ _)
  | pcHdr =>
    exact withView_eq_ok.trans (or_iff_left fun ⟨_, h⟩ => bind_ne_ok (fun _ => hr.respond_ne _ _) h)
  | decSummary => exact decSummary_eq_ok hr
  | _ => exact scalar_eq_ok hr

end

/-- An operation answers `r`, which carries no result, exactly when one of its checks or its route
ends it so. -/
theorem exec_answer_noResult {i : Instr} {s : State} {r : Response} (hr : r.NoResult) :
    exec i s = .next (s.answer r) ↔ EndsWithoutResult s.frame r i := by
  rw [exec_eq, execOn_answer, opOf_eq_ok hr]

/-- Settles O53: of all that ends an operation, only the route of `DEC.SUMMARY` gives `NotIPv4`, and
only the `.N` forms' check of `n` gives `IllegalCommand`. -/
theorem notIPv4AndIllegalCommandRaisers : Obligations.NotIPv4AndIllegalCommandRaisers := by
  refine fun i s => ⟨fun id => ?_, ?_⟩
  · rw [exec_answer_noResult (Response.noResult_notIPv4 id)]
    cases i with
    | decSummary =>
      simp [EndsWithoutResult, HeaderCheckEnds, IhlCheckEnds, TotalLengthCheckEnds, Frame.linkId]
    | _ => simp [EndsWithoutResult, HeaderCheckEnds, IhlCheckEnds]
  · rw [exec_answer_noResult (Response.noResult_failed _)]
    cases i with
    | csComputeN n | csVerifyN n => simp [EndsWithoutResult, Instr.wf, optionsLenLegal_eq_false]
    | decSummary =>
      simp [EndsWithoutResult, HeaderCheckEnds, IhlCheckEnds, TotalLengthCheckEnds, Instr.wf]
    | _ => simp [EndsWithoutResult, HeaderCheckEnds, IhlCheckEnds, Instr.wf]

/-- Settles O52: the checks that end an operation with `FrameTruncated` are the cases (a) to (e). -/
theorem frameTruncatedRaisers : Obligations.FrameTruncatedRaisers := by
  intro i s viewOp
  rw [exec_answer_noResult (Response.noResult_failed _)]
  cases i with
  | decSummary =>
    simp [viewOp, EndsWithoutResult, HeaderCheckEnds, IhlCheckEnds, TotalLengthCheckEnds,
      Frame.linkId, and_or_left, or_assoc]
  | _ => simp [viewOp, EndsWithoutResult, HeaderCheckEnds, IhlCheckEnds]

end Sys2Proof.Machine

/-! # The encoding: the words that decode, and the words that do not (R60 to R67) -/

namespace Sys2Proof

/-- A row that the format N table finds is the operation whose word has that code and a zero `ARG`. -/
theorem encode_of_lookup {op : Byte} {i : Instr} (h : formatN.lookup op = some i) :
    i.wf = true ∧ encode i = op ++ (0 : Byte) := by
  obtain ⟨l₁, l₂, hl, -⟩ := List.lookup_eq_some_iff.mp h
  obtain ⟨hop, himm, hwf⟩ := formatN_rows (op, i) (hl ▸ by simp)
  exact ⟨hwf, by rw [encode, Instr.arg, hop, himm, Option.getD_none]⟩

/-- Each branch of the decoder that accepts a word gives an operation with the fields of that word. -/
theorem encode_decode {w : Half} {i : Instr} (h : decode w = .ok i) :
    i.wf = true ∧ encode i = w := by
  rw [← fields_append w]
  unfold decode at h
  generalize opField w = op, argField w = arg at h
  dsimp only at h
  split at h
  · next hop =>
    split at h
    · next hn => cases h; exact ⟨hn, hop ▸ rfl⟩
    · cases h
  split at h
  · next hop =>
    split at h
    · next hn => cases h; exact ⟨hn, hop ▸ rfl⟩
    · cases h
  split at h
  · next hop => cases h; exact ⟨rfl, hop ▸ rfl⟩
  split at h
  · next hlookup =>
    split at h
    · next harg => cases h; exact harg ▸ encode_of_lookup hlookup
    · cases h
  · cases h

/-- Settles O2: the 20 format N operations by their rows of the table, the three of format I by their
branches of the decoder. -/
theorem decodeOfEncodeIsIdentity : Obligations.DecodeOfEncodeIsIdentity := fun _ => decode_encode

/-- Settles O3, by the accepting branches of the decoder. -/
theorem encodeOfDecodeIsIdentity : Obligations.EncodeOfDecodeIsIdentity := fun _ _ => encode_decode

/-- A format I word as the sum in which the opcode map writes it (R64). -/
theorem ofNat_add_eq_append (op arg : Byte) :
    BitVec.ofNat 16 (op.toNat * 256 + arg.toNat) = op ++ arg := by
  apply BitVec.eq_of_toNat_eq
  rw [toNat_append_add, BitVec.toNat_ofNat]
  omega

/-- Settles O1: the format N rows are 20 closed words, and a format I row is its code joined to any legal
immediate. -/
theorem opcodeMapDecodes : Obligations.OpcodeMapDecodes := by
  refine ⟨by decide, fun n hn => ⟨?_, ?_⟩, fun n => ?_⟩
  · exact ofNat_add_eq_append 0x22 n ▸ decode_csComputeN (optionsLenLegal_eq_true.mpr hn)
  · exact ofNat_add_eq_append 0x23 n ▸ decode_csVerifyN (optionsLenLegal_eq_true.mpr hn)
  · exact ofNat_add_eq_append 0x30 n ▸ decode_pcMap n

/-- The legal words are the words of the well-formed operations. -/
theorem decode_eq_ok_iff {w : Half} {i : Instr} :
    decode w = .ok i ↔ i.wf = true ∧ encode i = w :=
  ⟨encode_decode, fun ⟨hi, hw⟩ => hw ▸ decode_encode hi⟩

theorem encode_inj {i j : Instr} (hi : i.wf = true) (hj : j.wf = true) (h : encode i = encode j) :
    i = j :=
  Except.ok.inj ((decode_encode hi).symm.trans (h ▸ decode_encode hj))

/-! ## The legal words, listed (R65) -/

/-- The bytes below `k`, for `k` at most 256. -/
def bytesBelow (k : Nat) : List Byte := (List.range k).map (BitVec.ofNat 8)

theorem length_bytesBelow (k : Nat) : (bytesBelow k).length = k := by simp [bytesBelow]

theorem mem_bytesBelow {k : Nat} (hk : k ≤ 256) {n : Byte} : n ∈ bytesBelow k ↔ n.toNat < k := by
  simp only [bytesBelow, List.mem_map, List.mem_range]
  constructor
  · rintro ⟨m, hm, rfl⟩
    rw [BitVec.toNat_ofNat]
    omega
  · exact fun h => ⟨n.toNat, h, by simp⟩

theorem nodup_bytesBelow {k : Nat} (hk : k ≤ 256) : (bytesBelow k).Nodup := by
  refine List.nodup_range.map_on fun a ha b hb h => ?_
  have := List.mem_range.mp ha
  have := List.mem_range.mp hb
  have := congrArg BitVec.toNat h
  simp only [BitVec.toNat_ofNat] at this
  omega

/-- The operations that have a command word: the rows of R64 with their legal immediates (R63). -/
def legalOps : List Instr :=
  formatN.map Prod.snd ++ ((bytesBelow 41).map .csComputeN ++
    ((bytesBelow 41).map .csVerifyN ++ (bytesBelow 256).map .pcMap))

theorem length_legalOps : legalOps.length = 358 := by
  simp [legalOps, length_bytesBelow, formatN]

theorem mem_legalOps {i : Instr} : i ∈ legalOps ↔ i.wf = true := by
  cases i with
  | csComputeN n | csVerifyN n =>
    simp [legalOps, formatN, Instr.wf, optionsLenLegal_eq_true, mem_bytesBelow, Nat.lt_succ_iff]
  | pcMap imm => simp [legalOps, formatN, Instr.wf, mem_bytesBelow, imm.isLt]
  | _ => simp [legalOps, formatN, Instr.wf]

theorem nodup_legalOps : legalOps.Nodup := by
  have hrows : (formatN.map Prod.snd).Nodup := by decide
  have hcompute := (nodup_bytesBelow (k := 41) (by decide)).map fun _ _ => Instr.csComputeN.inj
  have hverify := (nodup_bytesBelow (k := 41) (by decide)).map fun _ _ => Instr.csVerifyN.inj
  have hmap := (nodup_bytesBelow (k := 256) (by decide)).map fun _ _ => Instr.pcMap.inj
  refine hrows.append (hcompute.append (hverify.append hmap ?_) ?_) ?_ <;>
    simp [List.Disjoint, formatN]

/-- Settles O5: the words of the legal operations, which are 20 + 41 + 41 + 256. -/
theorem legalWordCount : Obligations.LegalWordCount := by
  refine ⟨legalOps.map encode, by rw [List.length_map, length_legalOps],
    nodup_legalOps.map_on fun i hi j hj => encode_inj (mem_legalOps.mp hi) (mem_legalOps.mp hj),
    fun w => ?_⟩
  simp only [List.mem_map, mem_legalOps, decode_eq_ok_iff]

/-! ## The words that select no operation (R66) -/

/-- The three ways a word selects no operation: its options length is too large, its code is in no row
of R64, or its `ARG` is not zero where format N wants zero. -/
theorem decodeWord_eq_none {w : Half} : decodeWord w = none ↔
    ((opField w = 0x22 ∨ opField w = 0x23) ∧ 40 < (argField w).toNat) ∨
    (opField w ≠ 0x22 ∧ opField w ≠ 0x23 ∧ opField w ≠ 0x30 ∧
      (formatN.lookup (opField w) = none ∨ argField w ≠ 0)) := by
  rw [← optionsLenLegal_eq_false]
  unfold decodeWord decode
  generalize opField w = op, argField w = arg
  dsimp only
  by_cases h22 : op = 0x22#8
  · subst h22
    cases hn : optionsLenLegal arg <;> simp [Except.toOption]
  by_cases h23 : op = 0x23#8
  · subst h23
    cases hn : optionsLenLegal arg <;> simp [Except.toOption]
  by_cases h30 : op = 0x30#8
  · subst h30
    simp [Except.toOption]
  cases hlookup : formatN.lookup op with
  | none => simp [h22, h23, h30, Except.toOption]
  | some i => by_cases harg : arg = 0#8 <;> simp [h22, h23, h30, harg, Except.toOption]

/-- The codes that no row of format N has, as numbers. -/
theorem formatN_lookup_eq_none {op : Byte} : formatN.lookup op = none ↔
    op.toNat = 0 ∨ (2 ≤ op.toNat ∧ op.toNat ≤ 0x0F) ∨ op.toNat = 0x1F ∨
    (0x22 ≤ op.toNat ∧ op.toNat ≤ 0x30) ∨ (0x32 ≤ op.toNat ∧ op.toNat ≤ 0x3F) ∨
    0x41 ≤ op.toNat := by
  simp only [List.lookup_eq_none_iff, formatN, List.cons_append, List.nil_append,
    List.forall_mem_cons, List.not_mem_nil, bne_iff_ne, ne_eq, BitVec.ofNat_eq_ofNat,
    BitVec.toNat_eq, BitVec.toNat_ofNat, IsEmpty.forall_iff, implies_true, and_true]
  omega

theorem opField_toNat (w : Half) : (opField w).toNat = w.toNat / 256 := by
  rw [opField, toNat_extract]
  omega

theorem argField_toNat (w : Half) : (argField w).toNat = w.toNat % 256 := by
  rw [argField, toNat_extract]
  omega

end Sys2Proof

namespace Sys2Proof.Machine

theorem wordOp_of_none {w : Half} (h : decodeWord w = none) (f : Frame) :
    wordOp w f = raise .illegalCommand := by
  rw [wordOp, h]

/-- Settles O4: the fields of a word decide whether it selects an operation, and one that selects none
is answered by `raise` alone, without the frame. -/
theorem illegalWordsAnswerIllegalCommand : Obligations.IllegalWordsAnswerIllegalCommand := by
  intro w op arg illegal
  have hnone : decodeWord w = none ↔ illegal := by
    rw [decodeWord_eq_none, formatN_lookup_eq_none]
    simp only [ne_eq, BitVec.ofNat_eq_ofNat, BitVec.toNat_eq, BitVec.toNat_ofNat, opField_toNat,
      argField_toNat, illegal, op, arg]
    omega
  exact ⟨hnone, fun s rest hill hissue =>
    step_issue_of_ok hissue (wordOp_of_none (hnone.mpr hill) s.frame)⟩

end Sys2Proof.Machine

/-! # The layouts of the results (R69) -/

namespace Sys2Proof.Machine

/-- A resized field stays below its own width's power of two. -/
theorem toNat_setWidth_lt {m n : Nat} (v : BitVec m) : (v.setWidth n).toNat < 2 ^ m := by
  rw [BitVec.toNat_setWidth]
  exact (Nat.mod_le _ _).trans_lt v.isLt

theorem EnvVariant.pack_lt (v : EnvVariant) : v.pack.toNat < 2 ^ 17 := by
  cases v with
  | ipv4 => decide
  | other id =>
    have := id.isLt
    rw [pack, toNat_append_add, toNat_append_add, BitVec.toNat_ofNat, BitVec.toNat_ofNat]
    omega

theorem Protocol.pack_lt (p : Protocol) : p.pack.toNat < 5 * 2 ^ 8 := by
  have hnumber := p.number.isLt
  have hkind : p.kind.toNat ≤ 4 := by cases p <;> simp [kind]
  rw [pack, toNat_append_add, toNat_append_add, BitVec.toNat_ofNat]
  omega

theorem packFlags_lt : ∀ cksum ver rsv len : Bool, (packFlags cksum ver rsv len).toNat < 2 ^ 4 := by
  decide

section
variable {f : Frame} {val aux : Word} {sum : SummaryWords}

theorem scalar_fields {n : Nat} {field : Frame → Except Fault (BitVec n)}
    (h : scalar field f = .ok (.done val aux sum)) : sum = .zero ∧ val.toNat < 2 ^ n ∧ aux = 0 := by
  obtain ⟨-, v, -, rfl, rfl, rfl⟩ := scalar_done h
  exact ⟨rfl, toNat_setWidth_lt v, rfl⟩

theorem envClass_fields (h : envClass f = .ok (.done val aux sum)) :
    sum = .zero ∧ val.toNat < 2 ^ 17 ∧ aux = 0 := by
  rcases withEnvelope_eq_ok.mp h with ⟨-, e⟩ | ⟨-, h⟩
  · cases e
  obtain ⟨_, -, h⟩ := except_bind_ok h
  obtain ⟨id, -, h⟩ := except_bind_ok h
  cases h
  exact ⟨rfl, EnvVariant.pack_lt _, rfl⟩

theorem hvIhl_fields (h : hvIhl f = .ok (.done val aux sum)) :
    sum = .zero ∧ 5 ≤ val.toNat ∧ val.toNat < 2 ^ 4 ∧ aux = 0 := by
  rcases withIhl_eq_ok.mp h with e | ⟨-, b0, -, h5, h⟩
  · simp [IhlCheckEnds] at e
  cases h
  refine ⟨rfl, ?_, toNat_setWidth_lt _, rfl⟩
  rw [BitVec.toNat_setWidth, ihlBits_toNat]
  omega

theorem hvOptions_fields (h : hvOptions f = .ok (.done val aux sum)) :
    sum = .zero ∧ val = 20 ∧ aux.toNat ≤ 40 ∧ aux.toNat % 4 = 0 := by
  obtain ⟨-, b0, -, h5, -, h⟩ := withHeader_done h
  cases h
  refine ⟨rfl, rfl, ?_⟩
  simp only [OptionsRegion.ofIhl, Config.ihlMin, Config.ihlUnit, BitVec.toNat_setWidth,
    BitVec.toNat_ofNat, ihlBits_toNat]
  omega

theorem computeResult_fields {n : Nat} (h : computeResult f n = .ok (.done val aux sum)) :
    sum = .zero ∧ val.toNat < 2 ^ 16 ∧ aux.toNat < 2 ^ 16 ∧ val.toNat + aux.toNat = 0xFFFF := by
  obtain ⟨folded, -, h⟩ := except_bind_ok h
  cases h
  refine ⟨rfl, toNat_setWidth_lt _, toNat_setWidth_lt _, ?_⟩
  rw [BitVec.toNat_setWidth, BitVec.toNat_setWidth, BitVec.toNat_not]
  omega

theorem verifyResult_fields {n : Nat} (h : verifyResult f n = .ok (.done val aux sum)) :
    sum = .zero ∧ val.toNat < 2 ∧ aux.toNat < 2 ^ 16 := by
  obtain ⟨folded, -, h⟩ := except_bind_ok h
  cases h
  exact ⟨rfl, toNat_setWidth_lt _, toNat_setWidth_lt _⟩

theorem pcHdr_fields (h : pcHdr f = .ok (.done val aux sum)) :
    sum = .zero ∧ val.toNat < 5 * 2 ^ 8 ∧ aux = 0 := by
  obtain ⟨-, h⟩ := withView_done h
  obtain ⟨p, -, h⟩ := except_bind_ok h
  cases h
  exact ⟨rfl, Protocol.pack_lt _, rfl⟩

end

/-- Settles O55: the checks an operation passed lead to its `respond`, whose values are packed from
fields of R69's widths. -/
theorem resultsStayInTheirFields : Obligations.ResultsStayInTheirFields := by
  intro i s val aux sum h
  rw [exec_eq, execOn_answer] at h
  cases i with
  | envClass => exact (envClass_fields h).imp_left fun hsum _ => hsum
  | hvIhl => exact (hvIhl_fields h).imp_left fun hsum _ => hsum
  | hvSrc | hvDst => exact (scalar_fields h).imp (fun hsum _ => hsum) And.right
  | hvOptions => exact (hvOptions_fields h).imp_left fun hsum _ => hsum
  | csCompute =>
    obtain ⟨-, b0, -, -, -, h⟩ := withHeader_done h
    exact (computeResult_fields h).imp_left fun hsum _ => hsum
  | csVerify =>
    obtain ⟨-, b0, -, -, -, h⟩ := withHeader_done h
    exact (verifyResult_fields h).imp_left fun hsum _ => hsum
  | csComputeN n =>
    obtain ⟨-, -, h⟩ := withOptionsLen_done h
    exact (computeResult_fields h).imp_left fun hsum _ => hsum
  | csVerifyN n =>
    obtain ⟨-, -, h⟩ := withOptionsLen_done h
    exact (verifyResult_fields h).imp_left fun hsum _ => hsum
  | pcMap imm =>
    cases h
    exact ⟨fun _ => rfl, Protocol.pack_lt _, rfl⟩
  | pcHdr => exact (pcHdr_fields h).imp_left fun hsum _ => hsum
  | decSummary =>
    obtain ⟨-, -, B, -, -, -, -, rfl, rfl, -⟩ := decSummary_done h
    exact ⟨fun hne => absurd rfl hne, packFlags_lt _ _ _ _, Protocol.pack_lt _⟩
  | _ => exact (scalar_fields h).imp_left fun hsum _ => hsum

end Sys2Proof.Machine

/-! # The envelope: its identifier decides, its flags are discarded (R81, R83) -/

namespace Sys2Proof.Machine

/-- The pack of R82 as a number: the identifier, and `VAL[16]` set when it is the one of IPv4. -/
theorem EnvVariant.pack_ofId (id : Half) : (EnvVariant.ofId id).pack =
    BitVec.ofNat 32 ((if id.toNat = 0x0800 then 65536 else 0) + id.toNat) := by
  by_cases hip : id = 0x0800
  · subst hip
    decide
  · have hne : id.toNat ≠ 0x0800 := fun h => hip (BitVec.eq_of_toNat_eq h)
    have hid := id.isLt
    rw [ofId, if_neg hip, if_neg hne, pack]
    apply BitVec.eq_of_toNat_eq
    rw [toNat_append_add, toNat_append_add, BitVec.toNat_ofNat, BitVec.toNat_ofNat,
      BitVec.toNat_ofNat]
    omega

section
variable {f g : Frame}

theorem envClass_short (h : f.flen.toNat < 4) : envClass f = raise .frameTruncated :=
  withEnvelope_short h

/-- Flags that read, whatever they hold, leave `ENV.CLASS` to the identifier alone. -/
theorem envClass_of_flags {flags : Half} (h4 : 4 ≤ f.flen.toNat)
    (hflags : f.memRead16 0 = .ok flags) :
    envClass f = f.linkId >>= fun id => respond (EnvVariant.ofId id).pack 0 := by
  rw [envClass, withEnvelope_long h4, hflags, except_ok_bind]

/-- On loaded frames the flags read, so frames with one identifier are classified alike. -/
theorem envClass_congr_of_linkId (hf : f.Loaded) (hg : g.Loaded) (hl : f.flen = g.flen)
    (hid : f.linkId = g.linkId) : envClass f = envClass g := by
  rcases Nat.lt_or_ge f.flen.toNat 4 with h4 | h4
  · rw [envClass_short h4, envClass_short (hl ▸ h4)]
  · have h4g : 4 ≤ g.flen.toNat := hl ▸ h4
    obtain ⟨flags, hflags⟩ := hf.memRead16 (a := 0) (by omega) (by omega)
    obtain ⟨flags', hflags'⟩ := hg.memRead16 (a := 0) (by omega) (by omega)
    rw [envClass_of_flags h4 hflags, envClass_of_flags h4g hflags', hid]

theorem four_le_of_mem_headerOffsets {a : Nat} (ha : a ∈ headerOffsets f) : 4 ≤ a := by
  unfold headerOffsets at ha
  split at ha
  · simp only [List.mem_cons, List.mem_map] at ha
    omega
  · exact (List.mem_singleton.mp ha).ge

/-- Only `ENV.CLASS` and `DEC.SUMMARY` read the envelope; the others read the view (R46). -/
theorem four_le_of_mem_footprint {i : Instr} (henv : i ≠ .envClass) (hdec : i ≠ .decSummary)
    {a : Nat} (ha : a ∈ footprint i f) : 4 ≤ a := by
  cases i with
  | envClass => exact absurd rfl henv
  | decSummary => exact absurd rfl hdec
  | csCompute | csVerify => exact four_le_of_mem_headerOffsets ha
  | csComputeN n | csVerifyN n =>
    obtain ⟨k, -, rfl⟩ := List.mem_map.mp ha
    exact Nat.le_add_right 4 k
  | pcMap imm => cases ha
  | _ =>
    simp only [footprint, List.mem_cons, List.not_mem_nil, or_false] at ha
    omega

/-- Loaded frames of one length that agree from offset 2 on give every operation one answer. -/
theorem opOf_congr_of_from_two (i : Instr) (hf : f.Loaded) (hg : g.Loaded) (hl : f.flen = g.flen)
    (h : ∀ a, 2 ≤ a → f.readByte a = g.readByte a) : opOf i f = opOf i g := by
  have hid : f.linkId = g.linkId := Frame.memRead16_congr (h 2 (by omega)) (h 3 (by omega))
  have hview (k : Nat) : f.viewByte k = g.viewByte k :=
    h _ (by simp only [Config.envelopeLen]; omega)
  by_cases henv : i = .envClass
  · exact henv ▸ envClass_congr_of_linkId hf hg hl hid
  by_cases hdec : i = .decSummary
  · exact hdec ▸ decSummary_congr hl hid (hview 0) fun _ _ k _ => hview k
  · refine opOf_congr hl fun a ha => h a ?_
    have := four_le_of_mem_footprint henv hdec ha
    omega

end

/-- Settles O57: a loaded frame answers every operation, and one that agrees with it from offset 2 on
answers the same. -/
theorem envelopeFlagsAreUnobservable : Obligations.EnvelopeFlagsAreUnobservable := by
  intro i s s' hs hs' hl h
  obtain ⟨r, hr, -⟩ := opOf_loaded hs i
  have hr' : opOf i s'.frame = .ok r := opOf_congr_of_from_two i hs hs' hl h ▸ hr
  exact ⟨r, by rw [exec_eq, execOn_of_ok hr], by rw [exec_eq, execOn_of_ok hr']⟩

/-- Settles O16: a frame of four bytes or more is classified by the number its bytes 2 and 3 make. -/
theorem envClassResult : Obligations.EnvClassResult := by
  refine ⟨by decide, fun s => ?_⟩
  simp only [exec_eq, execOn_answer]
  refine ⟨envClass_short, fun b0 b1 b2 b3 h4 h0 h1 h2 h3 => ?_⟩
  have hid : s.frame.linkId = .ok (b2 ++ b3) := Frame.memRead16_of h2 h3
  have hval : (b2 ++ b3).toNat = b2.toNat * 256 + b3.toNat := toNat_append_add b2 b3
  rw [opOf, envClass_of_flags h4 (Frame.memRead16_of h0 h1), hid, except_ok_bind,
    EnvVariant.pack_ofId, hval, ← Nat.add_assoc, respond]

end Sys2Proof.Machine

/-! # The header view: each accessor's field as plain arithmetic on octets (R93 to R107) -/

namespace Sys2Proof.Machine

/-! ## An operation by its function of the frame -/

theorem exec_next {i : Instr} {s t : State} :
    exec i s = .next t ↔ ∃ r, opOf i s.frame = .ok r ∧ t = s.answer r := by
  rw [exec_eq, execOn_next]

theorem exec_of_ok {i : Instr} {s : State} {r : Response} (h : opOf i s.frame = .ok r) :
    exec i s = .next (s.answer r) := exec_next.mpr ⟨r, h, rfl⟩

/-- Settles O58: a response is a function of the frame, and an answer leaves the frame as it was. -/
theorem responsesDoNotDependOnOrder : Obligations.ResponsesDoNotDependOnOrder := by
  intro i j s si sj hi hj
  obtain ⟨ri, hri, rfl⟩ := exec_next.mp hi
  obtain ⟨rj, hrj, rfl⟩ := exec_next.mp hj
  exact ⟨ri, rj, rfl, rfl, exec_of_ok hrj, exec_of_ok hri⟩

/-! ## The fields of known octets -/

section
variable {f : Frame}

/-- A field that slices one view octet. -/
theorem Frame.octetField_of {α : Type} {k : Nat} {b : Byte} (slice : Byte → α)
    (h : f.viewByte k = .ok b) : (f.viewByte k >>= fun b => .ok (slice b)) = .ok (slice b) := by
  rw [h, except_ok_bind]

theorem Frame.be16_of {k : Nat} {b0 b1 : Byte} (h0 : f.viewByte k = .ok b0)
    (h1 : f.viewByte (k + 1) = .ok b1) : f.be16 k = .ok (b0 ++ b1) := memRead16_of h0 h1

theorem Frame.be32_of {k : Nat} {b0 b1 b2 b3 : Byte} (h0 : f.viewByte k = .ok b0)
    (h1 : f.viewByte (k + 1) = .ok b1) (h2 : f.viewByte (k + 2) = .ok b2)
    (h3 : f.viewByte (k + 3) = .ok b3) : f.be32 k = .ok (b0 ++ b1 ++ b2 ++ b3) :=
  memRead32_of h0 h1 h2 h3

theorem Frame.fragmentOffset_of {b6 b7 : Byte} (h6 : f.viewByte 6 = .ok b6)
    (h7 : f.viewByte 7 = .ok b7) : f.fragmentOffset = .ok (fragoffBits b6 b7) := by
  rw [fragmentOffset, h6, except_ok_bind, h7, except_ok_bind]

end

theorem versionBits_toNat (b0 : Byte) : (versionBits b0).toNat = b0.toNat / 16 := by
  have := b0.isLt
  rw [versionBits, toNat_extract]
  omega

theorem dscpBits_toNat (b1 : Byte) : (dscpBits b1).toNat = b1.toNat / 4 := by
  have := b1.isLt
  rw [dscpBits, toNat_extract]
  omega

theorem ecnBits_toNat (b1 : Byte) : (ecnBits b1).toNat = b1.toNat % 4 := by
  rw [ecnBits, toNat_extract]
  omega

theorem dfBit_toNat (b6 : Byte) : (dfBit b6).toNat = b6.toNat / 64 % 2 := toNat_extract b6 6 1

theorem mfBit_toNat (b6 : Byte) : (mfBit b6).toNat = b6.toNat / 32 % 2 := toNat_extract b6 5 1

theorem fragoffBits_toNat (b6 b7 : Byte) :
    (fragoffBits b6 b7).toNat = b6.toNat % 32 * 256 + b7.toNat := by
  rw [fragoffBits, toNat_append_add, toNat_extract]
  omega

theorem toNat_append4 (b0 b1 b2 b3 : Byte) : (b0 ++ b1 ++ b2 ++ b3).toNat =
    ((b0.toNat * 256 + b1.toNat) * 256 + b2.toNat) * 256 + b3.toNat := by
  rw [toNat_append_add, toNat_append_add, toNat_append_add]
  omega

/-! ## The scalar accessors -/

section
variable {i : Instr} {n : Nat} {field : Frame → Except Fault (BitVec n)} {s : State}

theorem exec_scalar_short (hop : opOf i = scalar field) (h : s.frame.vlen < 20) :
    exec i s = .next (s.answer (.failed .frameTruncated)) :=
  exec_of_ok (by rw [hop, scalar_short h, raise])

/-- A scalar accessor answers the number that its field is. -/
theorem exec_scalar_of {v : BitVec n} {val : Nat} (hop : opOf i = scalar field)
    (h : 20 ≤ s.frame.vlen) (hv : field s.frame = .ok v) (hval : v.toNat = val) :
    exec i s = .next (s.answer (.done (BitVec.ofNat 32 val) 0 .zero)) :=
  exec_of_ok (by rw [hop, scalar_of h hv, setWidth_eq_ofNat, hval, respond])

end

/-- Settles O17: the field is the slice `B[0][7:4]`. -/
theorem hvVersionResult : Obligations.HvVersionResult :=
  ⟨by decide, fun _ => ⟨exec_scalar_short rfl, fun b0 h h0 =>
    exec_scalar_of rfl h (Frame.octetField_of versionBits h0) (versionBits_toNat b0)⟩⟩

/-- Settles O19: the field is the slice `B[1][7:2]`. -/
theorem hvDscpResult : Obligations.HvDscpResult :=
  ⟨by decide, fun _ => ⟨exec_scalar_short rfl, fun b1 h h1 =>
    exec_scalar_of rfl h (Frame.octetField_of dscpBits h1) (dscpBits_toNat b1)⟩⟩

/-- Settles O20: the field is the slice `B[1][1:0]`. -/
theorem hvEcnResult : Obligations.HvEcnResult :=
  ⟨by decide, fun _ => ⟨exec_scalar_short rfl, fun b1 h h1 =>
    exec_scalar_of rfl h (Frame.octetField_of ecnBits h1) (ecnBits_toNat b1)⟩⟩

/-- Settles O21: the field is `BE16(2)`. -/
theorem hvTotlenResult : Obligations.HvTotlenResult :=
  ⟨by decide, fun _ => ⟨exec_scalar_short rfl, fun b2 b3 h h2 h3 =>
    exec_scalar_of rfl h (Frame.be16_of h2 h3) (toNat_append_add b2 b3)⟩⟩

/-- Settles O22: the field is `BE16(4)`. -/
theorem hvIdentResult : Obligations.HvIdentResult :=
  ⟨by decide, fun _ => ⟨exec_scalar_short rfl, fun b4 b5 h h4 h5 =>
    exec_scalar_of rfl h (Frame.be16_of h4 h5) (toNat_append_add b4 b5)⟩⟩

/-- Settles O23: the field is the bit `B[6][6]`. -/
theorem hvDfResult : Obligations.HvDfResult :=
  ⟨by decide, fun _ => ⟨exec_scalar_short rfl, fun b6 h h6 =>
    exec_scalar_of rfl h (Frame.octetField_of dfBit h6) (dfBit_toNat b6)⟩⟩

/-- Settles O24: the field is the bit `B[6][5]`. -/
theorem hvMfResult : Obligations.HvMfResult :=
  ⟨by decide, fun _ => ⟨exec_scalar_short rfl, fun b6 h h6 =>
    exec_scalar_of rfl h (Frame.octetField_of mfBit h6) (mfBit_toNat b6)⟩⟩

/-- Settles O25: the field is `B[6][4:0]` joined to `B[7]`. -/
theorem hvFragoffResult : Obligations.HvFragoffResult :=
  ⟨by decide, fun _ => ⟨exec_scalar_short rfl, fun b6 b7 h h6 h7 =>
    exec_scalar_of rfl h (Frame.fragmentOffset_of h6 h7) (fragoffBits_toNat b6 b7)⟩⟩

/-- Settles O26: the field is `B[8]` itself. -/
theorem hvTtlResult : Obligations.HvTtlResult :=
  ⟨by decide, fun _ => ⟨exec_scalar_short rfl, fun _ h h8 => exec_scalar_of rfl h h8 rfl⟩⟩

/-- Settles O27: the field is `B[9]` itself. -/
theorem hvProtonumResult : Obligations.HvProtonumResult :=
  ⟨by decide, fun _ => ⟨exec_scalar_short rfl, fun _ h h9 => exec_scalar_of rfl h h9 rfl⟩⟩

/-- Settles O28: the field is `BE16(10)`. -/
theorem hvCsumfldResult : Obligations.HvCsumfldResult :=
  ⟨by decide, fun _ => ⟨exec_scalar_short rfl, fun b10 b11 h h10 h11 =>
    exec_scalar_of rfl h (Frame.be16_of h10 h11) (toNat_append_add b10 b11)⟩⟩

/-- Settles O29: the field is `BE32(12)`. -/
theorem hvSrcResult : Obligations.HvSrcResult :=
  ⟨by decide, fun _ => ⟨exec_scalar_short rfl, fun b12 b13 b14 b15 h h12 h13 h14 h15 =>
    exec_scalar_of rfl h (Frame.be32_of h12 h13 h14 h15) (toNat_append4 b12 b13 b14 b15)⟩⟩

/-- Settles O30: the field is `BE32(16)`. -/
theorem hvDstResult : Obligations.HvDstResult :=
  ⟨by decide, fun _ => ⟨exec_scalar_short rfl, fun b16 b17 b18 b19 h h16 h17 h18 h19 =>
    exec_scalar_of rfl h (Frame.be32_of h16 h17 h18 h19) (toNat_append4 b16 b17 b18 b19)⟩⟩

/-! ## The header length and the options region -/

theorem hvIhl_of {f : Frame} {b0 : Byte} (h : 20 ≤ f.vlen) (h0 : f.viewByte 0 = .ok b0)
    (h5 : 5 ≤ b0.toNat % 16) : hvIhl f = respond (BitVec.ofNat 32 (b0.toNat % 16)) 0 := by
  rw [hvIhl, withIhl_valid h h0 h5, setWidth_eq_ofNat, ihlBits_toNat]

/-- The region ends at most 60 octets into the view, so its length fits one byte (R107). -/
theorem OptionsRegion.ofIhl_length_toNat (b0 : Byte) :
    (OptionsRegion.ofIhl (ihlBits b0)).length.toNat = (b0.toNat % 16 - 5) * 4 := by
  simp only [ofIhl, Config.ihlMin, Config.ihlUnit, ihlBits_toNat, BitVec.toNat_ofNat]
  omega

theorem hvOptions_of {f : Frame} {b0 : Byte} (h0 : f.viewByte 0 = .ok b0)
    (h5 : 5 ≤ b0.toNat % 16) (hl : b0.toNat % 16 * 4 ≤ f.vlen) :
    hvOptions f = respond 20 (BitVec.ofNat 32 ((b0.toNat % 16 - 5) * 4)) := by
  rw [hvOptions, withHeader_valid h0 h5 hl, ← OptionsRegion.ofIhl_length_toNat,
    ← setWidth_eq_ofNat]
  rfl

/-- Settles O18: the view check, then the nibble check, then the nibble (R94). -/
theorem hvIhlResult : Obligations.HvIhlResult :=
  ⟨by decide, fun _ => ⟨fun h => exec_of_ok (withIhl_short h), fun _ h h0 =>
    ⟨fun h5 => exec_of_ok (withIhl_invalid h h0 h5), fun h5 => exec_of_ok (hvIhl_of h h0 h5)⟩⟩⟩

/-- Settles O31: the three checks of the header in their order, then the region (R107). -/
theorem hvOptionsResult : Obligations.HvOptionsResult := by
  refine ⟨by decide, fun s => ⟨?_, fun b0 h h0 => ⟨?_, ?_⟩, fun b0 _ h0 h5 hl => ?_⟩⟩
  · exact fun h => exec_of_ok (withHeader_short h)
  · exact fun h5 => exec_of_ok (withHeader_invalid h h0 h5)
  · exact fun h5 hl => exec_of_ok (withHeader_truncated h h0 h5 hl)
  · exact exec_of_ok (hvOptions_of h0 h5 hl)

end Sys2Proof.Machine

/-! # The checksum engine: words, accumulator, folds (R131 to R136) -/

namespace Sys2Proof.Machine

/-! ## Octets of a changed byte list -/

theorem octet_lt (B : List Byte) (i : Nat) : octet B i < 256 := (B.getD i 0).isLt

theorem octet_of_length_le {B : List Byte} {i : Nat} (h : B.length ≤ i) : octet B i = 0 := by
  rw [octet, List.getD_eq_default _ _ h]
  rfl

theorem octet_set_self {B : List Byte} {k : Nat} (hk : k < B.length) (b : Byte) :
    octet (B.set k b) k = b.toNat := by
  simp [octet, hk]

theorem octet_set_ne (B : List Byte) {k i : Nat} (h : k ≠ i) (b : Byte) :
    octet (B.set k b) i = octet B i := by
  simp [octet, h]

theorem octet2_lt (B : List Byte) (i : Nat) : octet2 B i < 65536 := by
  have := octet_lt B i
  have := octet_lt B (i + 1)
  unfold octet2
  omega

/-! ## Step 1: the words (R132) -/

theorem length_wordsOf (B : List Byte) : (wordsOf B).length = (B.length + 1) / 2 := by
  induction B using wordsOf.induct with
  | case1 => rfl
  | case2 hi => simp [wordsOf]
  | case3 hi lo rest ih =>
    simp only [wordsOf, List.length_cons, ih]
    omega

/-- Word `j` joins octets `2j` and `2j + 1`; the default of `getD` is the pad byte. -/
theorem wordsOf_getElem? {B : List Byte} {j : Nat} (hj : 2 * j < B.length) :
    (wordsOf B)[j]? = some (B.getD (2 * j) 0 ++ B.getD (2 * j + 1) 0) := by
  induction B using wordsOf.induct generalizing j with
  | case1 => simp at hj
  | case2 hi =>
    obtain rfl : j = 0 := by simp at hj; omega
    rfl
  | case3 hi lo rest ih =>
    cases j with
    | zero => rfl
    | succ j => exact ih (by simp at hj; omega)

theorem toNat_append_getD (B : List Byte) (i : Nat) :
    (B.getD i 0 ++ B.getD (i + 1) 0).toNat = octet2 B i := toNat_append_add _ _

/-- The pad byte may as well stand in the input (R140). -/
theorem wordsOf_append_zero {B : List Byte} (h : B.length % 2 = 1) :
    wordsOf (B ++ [0]) = wordsOf B := by
  induction B using wordsOf.induct with
  | case1 => simp at h
  | case2 hi => rfl
  | case3 hi lo rest ih =>
    simp only [List.cons_append, wordsOf]
    rw [ih (by simp at h; omega)]

/-- Settles O36: the length and the words of `wordsOf`, whose last low byte is the pad. -/
theorem checksumWordsArePadded : Obligations.ChecksumWordsArePadded := by
  intro B
  refine ⟨length_wordsOf B, fun j hj => ⟨_, wordsOf_getElem? hj, fun _ => ?_, fun hend => ?_⟩⟩
  · exact toNat_append_getD B _
  · rw [toNat_append_getD, octet2, octet_of_length_le hend.ge, Nat.add_zero]

/-! ## Step 2: the accumulator (R133) -/

theorem length_maskField (mode : SumMode) (ws : List Half) :
    (maskField mode ws).length = ws.length := by
  cases mode with
  | compute => exact List.length_set
  | verify => rfl

/-- Each word is counted as `wordAt` says: word 5 is 0 in compute mode. -/
theorem maskField_wordsOf_getElem (mode : SumMode) (B : List Byte) {j : Nat}
    (hj : j < (maskField mode (wordsOf B)).length) :
    (maskField mode (wordsOf B))[j].toNat = wordAt mode B j := by
  have hlen : j < (B.length + 1) / 2 := by rwa [length_maskField, length_wordsOf] at hj
  have hw : (wordsOf B)[j]'(by rwa [length_wordsOf]) = B.getD (2 * j) 0 ++ B.getD (2 * j + 1) 0 :=
    (List.getElem_eq_iff _).mpr (wordsOf_getElem? (by omega))
  have hw := (congrArg BitVec.toNat hw).trans (toNat_append_getD B _)
  cases mode with
  | verify => simp [maskField, wordAt, hw]
  | compute =>
    rcases eq_or_ne j 5 with rfl | h5
    · simp [maskField, wordAt]
    · simp [maskField, wordAt, h5, h5.symm, hw]

/-- The words counted add up to the exact sum. -/
theorem sum_maskField_wordsOf (mode : SumMode) (B : List Byte) :
    ((maskField mode (wordsOf B)).map BitVec.toNat).sum = wordTotal mode B := by
  rw [wordTotal, ← length_wordsOf, ← length_maskField mode, Finset.sum_range,
    ← Fin.sum_univ_fun_getElem]
  exact Finset.sum_congr rfl fun j _ => maskField_wordsOf_getElem mode B j.isLt

theorem wordAt_le (mode : SumMode) (B : List Byte) (j : Nat) : wordAt mode B j ≤ 65535 := by
  have := octet2_lt B (2 * j)
  unfold wordAt
  split <;> omega

theorem wordTotal_le {B : List Byte} (h60 : B.length ≤ 60) (mode : SumMode) :
    wordTotal mode B ≤ 0x1DFFE2 :=
  calc wordTotal mode B ≤ (Finset.range ((B.length + 1) / 2)).card • 65535 :=
        Finset.sum_le_card_nsmul _ _ _ fun j _ => wordAt_le mode B j
    _ ≤ 0x1DFFE2 := by rw [Finset.card_range, smul_eq_mul]; omega

/-- Adding words to an accumulator that has room for them wraps nowhere. -/
theorem foldl_add_toNat (ws : List Half) {acc : Word}
    (h : acc.toNat + (ws.map BitVec.toNat).sum < 2 ^ 32) :
    (ws.foldl (fun acc w => acc + w.setWidth 32) acc).toNat =
      acc.toNat + (ws.map BitVec.toNat).sum := by
  induction ws generalizing acc with
  | nil => rfl
  | cons w ws ih =>
    rw [List.map_cons, List.sum_cons] at h ⊢
    have hacc : (acc + w.setWidth 32).toNat = acc.toNat + w.toNat := by
      rw [BitVec.toNat_add, BitVec.toNat_setWidth_of_le (by omega), Nat.mod_eq_of_lt (by omega)]
    rw [List.foldl_cons, ih (by omega), hacc, Nat.add_assoc]

theorem accumulate_toNat {B : List Byte} (h60 : B.length ≤ 60) (mode : SumMode) :
    (accumulate (maskField mode (wordsOf B))).toNat = wordTotal mode B := by
  have hle := wordTotal_le h60 mode
  rw [← sum_maskField_wordsOf] at hle ⊢
  rw [accumulate, foldl_add_toNat _ (by simp; omega)]
  simp

/-- Settles O37: at most 30 words of at most 65535 each leave room in 32 bits. -/
theorem accumulatorIsExact : Obligations.AccumulatorIsExact :=
  fun mode _ h60 => ⟨accumulate_toNat h60 mode, wordTotal_le h60 mode⟩

/-! ## Step 3: the folds (R135) -/

theorem foldOnce_toNat (acc : Word) :
    (foldOnce acc).toNat = acc.toNat / 65536 + acc.toNat % 65536 := by
  have hhigh : acc.toNat / 2 ^ 16 < 2 ^ 16 := Nat.div_lt_of_lt_mul acc.isLt
  rw [foldOnce, BitVec.toNat_add, BitVec.toNat_setWidth, BitVec.toNat_setWidth, toNat_extract,
    toNat_extract, Nat.mod_eq_of_lt hhigh]
  omega

/-- The loop's test: the high half is zero. -/
theorem high_half_eq_zero {acc : Word} : acc.extractLsb' 16 16 = 0 ↔ acc.toNat < 65536 := by
  rw [← BitVec.toNat_inj, toNat_extract]
  have := acc.isLt
  simp
  omega

theorem foldLoop_of_lt {acc : Word} (h : acc.toNat < 65536) (n : Nat) : foldLoop n acc = acc := by
  cases n with
  | zero => rfl
  | succ n => exact if_pos (high_half_eq_zero.mpr h)

theorem foldLoop_succ_of_le {acc : Word} (h : 65536 ≤ acc.toNat) (n : Nat) :
    foldLoop (n + 1) acc = foldLoop n (foldOnce acc) :=
  if_neg (mt high_half_eq_zero.mp h.not_gt)

theorem foldLoop_add (m n : Nat) (acc : Word) :
    foldLoop (m + n) acc = foldLoop n (foldLoop m acc) := by
  induction m generalizing acc with
  | zero => rw [Nat.zero_add, foldLoop]
  | succ m ih =>
    rcases Nat.lt_or_ge acc.toNat 65536 with h | h
    · simp only [foldLoop_of_lt h]
    · rw [Nat.add_right_comm, foldLoop_succ_of_le h, foldLoop_succ_of_le h, ih]

/-- The first fold leaves at most `2 * 0xFFFF`, the second no high half. -/
theorem foldLoop_two_lt (acc : Word) : (foldLoop 2 acc).toNat < 65536 := by
  rcases Nat.lt_or_ge acc.toNat 65536 with h | h
  · rwa [foldLoop_of_lt h]
  have h1 := foldOnce_toNat acc
  rw [foldLoop_succ_of_le h]
  rcases Nat.lt_or_ge (foldOnce acc).toNat 65536 with h' | h'
  · rwa [foldLoop_of_lt h']
  · rw [foldLoop_succ_of_le h', foldLoop, foldOnce_toNat]
    omega

theorem foldLoop_two_add (n : Nat) (acc : Word) : foldLoop (2 + n) acc = foldLoop 2 acc := by
  rw [foldLoop_add, foldLoop_of_lt (foldLoop_two_lt acc)]

theorem foldAcc_of_lt {acc : Word} (h : acc.toNat < 65536) : (foldAcc acc).toNat = acc.toNat := by
  rw [foldAcc, foldLoop_of_lt h, toNat_extract]
  omega

theorem foldAcc_of_le {acc : Word} (h : 65536 ≤ acc.toNat) : foldAcc acc = foldAcc (foldOnce acc) := by
  rw [foldAcc, foldAcc, ← foldLoop_succ_of_le h]
  exact congrArg _ (foldLoop_two_add 1 acc).symm

/-- Settles O38: two rounds reach a zero high half, where the loop stands still. -/
theorem twoFoldsAlwaysSuffice : Obligations.TwoFoldsAlwaysSuffice := fun acc =>
  ⟨foldOnce_toNat acc, foldLoop_two_lt acc, fun n => foldLoop_two_add n acc, foldAcc_of_lt,
    foldAcc_of_le⟩

/-! ## The closed form (R135) -/

theorem endAround_of_lt {t : Nat} (h : t < 65536) : endAround t = t := by
  unfold endAround
  split <;> omega

/-- A fold keeps the closed form, because 65536 is 1 modulo 65535. -/
theorem endAround_fold {t : Nat} (h : 65536 ≤ t) : endAround (t / 65536 + t % 65536) = endAround t := by
  unfold endAround
  rw [if_neg (by omega), if_neg (by omega)]
  omega

/-- The folded sum is 0xFFFF exactly for the nonzero multiples of 65535. -/
theorem endAround_eq_max {t : Nat} : endAround t = 65535 ↔ t ≠ 0 ∧ t % 65535 = 0 := by
  unfold endAround
  split <;> omega

/-- By induction on the accumulator, which every fold of the while loop makes smaller. -/
theorem foldAcc_toNat (acc : Word) : (foldAcc acc).toNat = endAround acc.toNat := by
  induction h : acc.toNat using Nat.strong_induction_on generalizing acc with
  | _ t ih =>
    subst h
    rcases Nat.lt_or_ge acc.toNat 65536 with hlt | hge
    · rw [foldAcc_of_lt hlt, endAround_of_lt hlt]
    · have hfold := foldOnce_toNat acc
      rw [foldAcc_of_le hge, ih _ (by omega) _ rfl, hfold, endAround_fold hge]

theorem foldSumBytes_toNat {B : List Byte} (h60 : B.length ≤ 60) (mode : SumMode) :
    (foldSumBytes mode B).toNat = endAround (wordTotal mode B) := by
  rw [foldSumBytes, foldAcc_toNat, accumulate_toNat h60]

/-- Settles O39: the exact accumulator, then the closed form of the fold loop. -/
theorem foldSumClosedForm : Obligations.FoldSumClosedForm :=
  fun mode _ h60 => foldSumBytes_toNat h60 mode

end Sys2Proof.Machine

/-! # The checksum operations (R137 to R144) -/

namespace Sys2Proof.Machine

/-! ## How the exact sum depends on one word, and on one octet -/

/-- Two sums whose terms differ at one place only differ as those terms do. -/
theorem sum_range_add_of_eq_off {g h : Nat → Nat} {n j : Nat} (hj : j < n)
    (heq : ∀ i, i ≠ j → g i = h i) :
    (∑ i ∈ Finset.range n, g i) + h j = (∑ i ∈ Finset.range n, h i) + g j := by
  have hmem : j ∈ Finset.range n := Finset.mem_range.mpr hj
  have herase : ∑ i ∈ (Finset.range n).erase j, g i = ∑ i ∈ (Finset.range n).erase j, h i :=
    Finset.sum_congr rfl fun i hi => heq i (Finset.ne_of_mem_erase hi)
  rw [← Finset.sum_erase_add _ _ hmem, ← Finset.sum_erase_add _ h hmem, herase, Nat.add_right_comm]

/-- The sum of verify mode is that of compute mode and the checksum field (R133). -/
theorem wordTotal_verify {B : List Byte} (h : 10 < B.length) :
    wordTotal .verify B = wordTotal .compute B + octet2 B 10 := by
  have hoff (i : Nat) (hi : i ≠ 5) : wordAt .verify B i = wordAt .compute B i := by
    simp [wordAt, hi]
  exact sum_range_add_of_eq_off (by omega) hoff

/-- What an octet counts for: 256 as the high byte of its word, 1 as the low byte. -/
def octetWeight (k : Nat) : Nat := if k % 2 = 0 then 256 else 1

/-- Setting an octet changes its word by that octet's change times its weight. -/
theorem octet2_set {B : List Byte} {k : Nat} (hk : k < B.length) (b : Byte) :
    octet2 (B.set k b) (2 * (k / 2)) + octet B k * octetWeight k =
      octet2 B (2 * (k / 2)) + b.toNat * octetWeight k := by
  have hself := octet_set_self hk b
  unfold octet2 octetWeight
  split
  next heven =>
    rw [show 2 * (k / 2) = k by omega, hself, octet_set_ne B (by omega)]
    omega
  next hodd =>
    rw [show 2 * (k / 2) + 1 = k by omega, hself, octet_set_ne B (by omega)]
    omega

theorem wordAt_verify (B : List Byte) (j : Nat) : wordAt .verify B j = octet2 B (2 * j) := by
  simp [wordAt]

/-- Setting one octet moves the sum of verify mode by that octet's change times its weight. -/
theorem wordTotal_verify_set {B : List Byte} {k : Nat} (hk : k < B.length) (b : Byte) :
    wordTotal .verify (B.set k b) + octet B k * octetWeight k =
      wordTotal .verify B + b.toNat * octetWeight k := by
  have hoff (i : Nat) (hi : i ≠ k / 2) :
      wordAt .verify (B.set k b) i = wordAt .verify B i := by
    simp (disch := omega) only [wordAt_verify, octet2, octet_set_ne]
  have hsum := sum_range_add_of_eq_off (n := (B.length + 1) / 2) (by omega) hoff
  have hword := octet2_set hk b
  rw [wordAt_verify, wordAt_verify] at hsum
  rw [wordTotal, wordTotal, List.length_set]
  omega

/-- Compute mode does not see octets 10 and 11. -/
theorem foldSumBytes_compute_set {B : List Byte} (h60 : B.length ≤ 60) (hi lo : Byte) :
    foldSumBytes .compute ((B.set 10 hi).set 11 lo) = foldSumBytes .compute B := by
  have hword (j : Nat) : wordAt .compute ((B.set 10 hi).set 11 lo) j = wordAt .compute B j := by
    rcases eq_or_ne j 5 with rfl | h5
    · simp [wordAt]
    · simp (disch := omega) only [wordAt, octet2, octet_set_ne]
  apply BitVec.eq_of_toNat_eq
  rw [foldSumBytes_toNat (by simpa using h60), foldSumBytes_toNat h60]
  simp only [wordTotal, hword, List.length_set]

/-! ## The two modes against each other (R143, R144) -/

theorem toNat_eq_max {v : Half} : v.toNat = 0xFFFF ↔ v = 0xFFFF := BitVec.toNat_inj (y := 0xFFFF)

theorem foldSumBytes_eq_max {B : List Byte} (h60 : B.length ≤ 60) (mode : SumMode) :
    foldSumBytes mode B = 0xFFFF ↔ wordTotal mode B ≠ 0 ∧ wordTotal mode B % 65535 = 0 := by
  rw [← endAround_eq_max, ← foldSumBytes_toNat h60, toNat_eq_max]

/-- Settles O40: the field is the difference of the two sums, and 0xFFFF is 0 modulo 65535. -/
theorem verifyAcceptsTheComputedField : Obligations.VerifyAcceptsTheComputedField := by
  intro B h20 h60
  have hv := octet2_lt B 10
  simp only [foldSumBytes_eq_max h60, wordTotal_verify (show 10 < B.length by omega),
    foldSumBytes_toNat h60, endAround]
  split <;> omega

/-- Replacing one octet of a valid header by another byte makes it invalid: the sum moves by at least 1 and
at most 255 * 256, so not by a multiple of 65535 (R143). -/
theorem foldSumBytes_verify_set_ne {B : List Byte} (h60 : B.length ≤ 60) {k : Nat} {b : Byte}
    (hk : k < B.length) (hb : b.toNat ≠ octet B k) (hvalid : foldSumBytes .verify B = 0xFFFF) :
    foldSumBytes .verify (B.set k b) ≠ 0xFFFF := by
  have hset := wordTotal_verify_set hk b
  have hold := octet_lt B k
  have hnew := b.isLt
  rw [foldSumBytes_eq_max h60] at hvalid
  rw [Ne, foldSumBytes_eq_max (by simpa using h60)]
  unfold octetWeight at hset
  split at hset <;> omega

/-! ## The responses of the four operations -/

/-- The response of compute mode on the summed bytes (R137, R140). -/
def computeResponse (B : List Byte) : Response :=
  .done (BitVec.ofNat 32 (0xFFFF - (foldSumBytes .compute B).toNat))
    (BitVec.ofNat 32 (foldSumBytes .compute B).toNat) .zero

/-- The response of verify mode on the summed bytes (R138, R141). -/
def verifyResponse (B : List Byte) : Response :=
  .done (BitVec.ofNat 32 (if (foldSumBytes .verify B).toNat = 0xFFFF then 1 else 0))
    (BitVec.ofNat 32 (foldSumBytes .verify B).toNat) .zero

theorem setWidth_cksumValid (folded : Half) :
    (BitVec.ofBool (cksumValid folded)).setWidth 32 =
      BitVec.ofNat 32 (if folded.toNat = 0xFFFF then 1 else 0) := by
  simp only [cksumValid, toNat_eq_max]
  split
  next h => rw [h]; rfl
  next h => rw [beq_eq_false_iff_ne.mpr h]; rfl

section
variable {f : Frame} {B : List Byte} (hB : f.HasView B)
include hB

theorem computeResult_eq_response : computeResult f B.length = .ok (computeResponse B) := by
  rw [computeResult_of hB, setWidth_eq_ofNat, setWidth_eq_ofNat, BitVec.toNat_not]
  rfl

theorem verifyResult_eq_response : verifyResult f B.length = .ok (verifyResponse B) := by
  rw [verifyResult_of hB, setWidth_cksumValid, setWidth_eq_ofNat]
  rfl

end

section
variable {s : State} {B : List Byte} (hB : s.frame.HasView B)
include hB

theorem exec_csCompute_of (hl : B.length = octet B 0 % 16 * 4) (h5 : 5 ≤ octet B 0 % 16) :
    exec .csCompute s = .next (s.answer (computeResponse B)) :=
  exec_of_ok ((csCompute_of hB hl h5).trans (computeResult_eq_response hB))

theorem exec_csVerify_of (hl : B.length = octet B 0 % 16 * 4) (h5 : 5 ≤ octet B 0 % 16) :
    exec .csVerify s = .next (s.answer (verifyResponse B)) :=
  exec_of_ok ((csVerify_of hB hl h5).trans (verifyResult_eq_response hB))

theorem exec_csComputeN_of {n : Byte} (hn : n.toNat ≤ 40) (hl : B.length = 20 + n.toNat) :
    exec (.csComputeN n) s = .next (s.answer (computeResponse B)) :=
  exec_of_ok ((csComputeN_of hB hn hl).trans (computeResult_eq_response hB))

theorem exec_csVerifyN_of {n : Byte} (hn : n.toNat ≤ 40) (hl : B.length = 20 + n.toNat) :
    exec (.csVerifyN n) s = .next (s.answer (verifyResponse B)) :=
  exec_of_ok ((csVerifyN_of hB hn hl).trans (verifyResult_eq_response hB))

end

/-! ## The checks of the four operations -/

section
variable {i : Instr} {s : State}

/-- The failures of an operation that takes the length from the header (R45). -/
theorem exec_withHeader_failed {k : Frame → BitVec 4 → Except Fault Response}
    (hop : opOf i = fun f => withHeader f (k f)) :
    (s.frame.vlen < 20 → exec i s = .next (s.answer (.failed .frameTruncated))) ∧
    ∀ b0 : Byte, 20 ≤ s.frame.vlen → s.frame.viewByte 0 = .ok b0 →
      (b0.toNat % 16 < 5 → exec i s = .next (s.answer (.failed .headerLengthInvalid))) ∧
      (5 ≤ b0.toNat % 16 → s.frame.vlen < b0.toNat % 16 * 4 →
        exec i s = .next (s.answer (.failed .frameTruncated))) := by
  have hexec {kind} (h : withHeader s.frame (k s.frame) = raise kind) :
      exec i s = .next (s.answer (.failed kind)) := exec_of_ok (by rw [hop]; exact h)
  exact ⟨fun h => hexec (withHeader_short h), fun b0 h h0 =>
    ⟨fun h5 => hexec (withHeader_invalid h h0 h5),
      fun h5 hl => hexec (withHeader_truncated h h0 h5 hl)⟩⟩

/-- The failures of an operation that takes the options length as an immediate (R45, R66). -/
theorem exec_withOptionsLen_failed {n : Byte} {k : Frame → Nat → Except Fault Response}
    (hop : opOf i = fun f => withOptionsLen n f (k f)) :
    (40 < n.toNat → exec i s = .next (s.answer (.failed .illegalCommand))) ∧
    (n.toNat ≤ 40 → s.frame.vlen < 20 + n.toNat →
      exec i s = .next (s.answer (.failed .frameTruncated))) := by
  have hexec {kind} (h : withOptionsLen n s.frame (k s.frame) = raise kind) :
      exec i s = .next (s.answer (.failed kind)) := exec_of_ok (by rw [hop]; exact h)
  exact ⟨fun h => hexec (withOptionsLen_illegal h), fun hn hv => hexec (withOptionsLen_short hn hv)⟩

end

/-- Settles O32: the checks of the header in their order, then the response of compute mode. -/
theorem csComputeResult : Obligations.CsComputeResult := by
  refine ⟨by decide, fun s => ?_⟩
  obtain ⟨hshort, hheader⟩ := exec_withHeader_failed (i := .csCompute) (s := s) rfl
  exact ⟨hshort, hheader, fun B hB hl h5 =>
    ⟨exec_csCompute_of hB hl h5, foldSumBytes_compute_set (by omega)⟩⟩

/-- Settles O33: the checks of the header in their order, then the response of verify mode. -/
theorem csVerifyResult : Obligations.CsVerifyResult := by
  refine ⟨by decide, fun s => ?_⟩
  obtain ⟨hshort, hheader⟩ := exec_withHeader_failed (i := .csVerify) (s := s) rfl
  exact ⟨hshort, hheader, fun B hB hl h5 => exec_csVerify_of hB hl h5⟩

/-- Settles O34: the two checks of the explicit length, then the response of compute mode. -/
theorem csComputeNResult : Obligations.CsComputeNResult := by
  obtain ⟨-, hdecode, -⟩ := opcodeMapDecodes
  refine ⟨fun n hn => (hdecode n hn).1, fun n s => ?_⟩
  obtain ⟨hillegal, hshort⟩ := exec_withOptionsLen_failed (i := .csComputeN n) (s := s) rfl
  exact ⟨hillegal, hshort, fun B hn hB hl => exec_csComputeN_of hB hn hl⟩

/-- Settles O35: the two checks of the explicit length, then the response of verify mode. -/
theorem csVerifyNResult : Obligations.CsVerifyNResult := by
  obtain ⟨-, hdecode, -⟩ := opcodeMapDecodes
  refine ⟨fun n hn => (hdecode n hn).2, fun n s => ?_⟩
  obtain ⟨hillegal, hshort⟩ := exec_withOptionsLen_failed (i := .csVerifyN n) (s := s) rfl
  exact ⟨hillegal, hshort, fun B hn hB hl => exec_csVerifyN_of hB hn hl⟩

/-- Settles O44: both forms answer with the response on the same bytes. -/
theorem explicitLengthMatchesHeaderLength : Obligations.ExplicitLengthMatchesHeaderLength := by
  intro s n B hB h5 hl hn
  have hn40 : n.toNat ≤ 40 := by omega
  have hl' : B.length = 20 + n.toNat := by omega
  exact ⟨⟨_, exec_csCompute_of hB hl h5, exec_csComputeN_of hB hn40 hl'⟩,
    _, exec_csVerify_of hB hl h5, exec_csVerifyN_of hB hn40 hl'⟩

/-- An odd input and its padding have one folded sum (R132). -/
theorem foldSumBytes_append_zero {B : List Byte} (h : B.length % 2 = 1) (mode : SumMode) :
    foldSumBytes mode (B ++ [0]) = foldSumBytes mode B := by
  rw [foldSumBytes, wordsOf_append_zero h, foldSumBytes]

/-- Settles O43: the words of an odd input already hold the zero byte. -/
theorem oddLengthPadsWithZero : Obligations.OddLengthPadsWithZero := by
  intro s s' n B hn hodd hl hB hB'
  have hsucc : (n + 1).toNat = n.toNat + 1 := BitVec.toNat_add_of_lt (by simp; omega)
  have hl' : (B ++ [0]).length = 20 + (n + 1).toNat := by
    rw [List.length_append, List.length_singleton]; omega
  have hpad := foldSumBytes_append_zero (B := B) (by omega)
  have hcompute : computeResponse (B ++ [0]) = computeResponse B := by
    rw [computeResponse, hpad, computeResponse]
  have hverify : verifyResponse (B ++ [0]) = verifyResponse B := by
    rw [verifyResponse, hpad, verifyResponse]
  exact ⟨⟨_, exec_csComputeN_of hB hn.le hl, hcompute ▸ exec_csComputeN_of hB' (by omega) hl'⟩,
    _, exec_csVerifyN_of hB hn.le hl, hverify ▸ exec_csVerifyN_of hB' (by omega) hl'⟩

/-! ## The laws of R143 -/

/-- An operation's answer determines its response. -/
theorem response_unique {i : Instr} {s : State} {r r' : Response}
    (h : exec i s = .next (s.answer r)) (h' : exec i s = .next (s.answer r')) : r = r' :=
  (State.answer_inj s r r').mp (Host.Outcome.next.inj (h.symm.trans h'))

theorem verifyResponse_of_valid {B : List Byte} (h : foldSumBytes .verify B = 0xFFFF) :
    ∃ aux, verifyResponse B = .done 1 aux .zero :=
  ⟨_, by rw [verifyResponse, if_pos (toNat_eq_max.mpr h)]; rfl⟩

theorem verifyResponse_of_invalid {B : List Byte} (h : foldSumBytes .verify B ≠ 0xFFFF) :
    ∃ aux, verifyResponse B = .done 0 aux .zero :=
  ⟨_, by rw [verifyResponse, if_neg (mt toNat_eq_max.mp h)]; rfl⟩

theorem valid_of_verifyResponse {B : List Byte} {aux : Word}
    (h : verifyResponse B = .done 1 aux .zero) : foldSumBytes .verify B = 0xFFFF := by
  by_contra hne
  obtain ⟨_, h0⟩ := verifyResponse_of_invalid hne
  simp [h0] at h

/-- The bytes with `c` in the checksum field, octets 10 and 11. -/
def withChecksum (B : List Byte) (c : Half) : List Byte :=
  (B.set 10 (c.extractLsb' 8 8)).set 11 (c.extractLsb' 0 8)

@[simp] theorem length_withChecksum (B : List Byte) (c : Half) :
    (withChecksum B c).length = B.length := by simp [withChecksum]

@[simp] theorem octet_zero_withChecksum (B : List Byte) (c : Half) :
    octet (withChecksum B c) 0 = octet B 0 := by
  rw [withChecksum, octet_set_ne _ (by omega), octet_set_ne _ (by omega)]

theorem octet2_withChecksum {B : List Byte} (h : 12 ≤ B.length) (c : Half) :
    octet2 (withChecksum B c) 10 = c.toNat := by
  have := c.isLt
  rw [octet2, withChecksum, octet_set_ne _ (by omega), octet_set_self (by omega),
    octet_set_self (by rw [List.length_set]; omega), toNat_extract, toNat_extract]
  omega

/-- A header with the computed value in its checksum field is valid (R143). -/
theorem foldSumBytes_verify_withChecksum {B : List Byte} {c : Half} {aux : Word}
    (h20 : 20 ≤ B.length) (h60 : B.length ≤ 60)
    (hc : computeResponse B = .done (c.setWidth 32) aux .zero) :
    foldSumBytes .verify (withChecksum B c) = 0xFFFF := by
  have hval : c.toNat = 0xFFFF - (foldSumBytes .compute B).toNat := by
    obtain ⟨hval, -, -⟩ := Response.done.inj hc
    have := congrArg BitVec.toNat hval
    simp only [BitVec.toNat_ofNat, BitVec.toNat_setWidth] at this
    have := c.isLt
    omega
  have hsame : foldSumBytes .compute (withChecksum B c) = foldSumBytes .compute B :=
    foldSumBytes_compute_set h60 _ _
  refine (verifyAcceptsTheComputedField _ (by simpa using h20) (by simpa using h60)).mpr (.inl ?_)
  rw [hsame, octet2_withChecksum (by omega), hval]

/-- Settles O41: either form answers from the same bytes, and the computed field makes them valid. -/
theorem computedChecksumVerifies : Obligations.ComputedChecksumVerifies := by
  intro s s' B c aux hB (hB' : s'.frame.HasView (withChecksum B c))
  have hvalid (h20 : 20 ≤ B.length) (h60 : B.length ≤ 60)
      (hc : computeResponse B = .done (c.setWidth 32) aux .zero) :=
    verifyResponse_of_valid (foldSumBytes_verify_withChecksum h20 h60 hc)
  refine ⟨fun hl h5 h => ?_, fun n hn hl h => ?_⟩
  · obtain ⟨aux', hr⟩ :=
      hvalid (by omega) (by omega) (response_unique (exec_csCompute_of hB hl h5) h)
    exact ⟨aux', hr ▸ exec_csVerify_of hB' (by simpa using hl) (by simpa using h5)⟩
  · obtain ⟨aux', hr⟩ :=
      hvalid (by omega) (by omega) (response_unique (exec_csComputeN_of hB hn hl) h)
    exact ⟨aux', hr ▸ exec_csVerifyN_of hB' hn (by simpa using hl)⟩

theorem one_shiftLeft_toNat {bit : Nat} (h : bit < 8) : (1#8 <<< bit).toNat = 2 ^ bit := by
  have : 2 ^ bit < 2 ^ 8 := Nat.pow_lt_pow_right one_lt_two h
  rw [BitVec.toNat_shiftLeft, BitVec.toNat_ofNat, Nat.shiftLeft_eq]
  omega

theorem xor_bit_ne {bit : Nat} (h : bit < 8) (b : Byte) : b ^^^ (1#8 <<< bit) ≠ b := by
  intro he
  have hzero : 1#8 <<< bit = 0#8 := by rwa [xor_left_eq_self_iff] at he
  have hpow := one_shiftLeft_toNat h
  rw [hzero] at hpow
  exact (Nat.two_pow_pos bit).ne hpow

/-- Flipping one of the four high bits keeps the low nibble. -/
theorem xor_bit_mod_16 {bit : Nat} (h4 : 4 ≤ bit) (h8 : bit < 8) (b : Byte) :
    (b ^^^ (1#8 <<< bit)).toNat % 16 = b.toNat % 16 := by
  have hmod : 2 ^ bit % 2 ^ 4 = 0 := Nat.mod_eq_zero_of_dvd (Nat.pow_dvd_pow 2 h4)
  rw [BitVec.toNat_xor, one_shiftLeft_toNat h8, show 16 = 2 ^ 4 from rfl, Nat.xor_mod_two_pow, hmod,
    Nat.xor_zero]

/-- Settles O42: a flipped bit makes another byte, and one other byte makes the sum invalid. -/
theorem bitFlipMakesVerifyFail : Obligations.BitFlipMakesVerifyFail := by
  intro s s' B k bit b aux hB hb hbit hB'
  obtain ⟨hk, -⟩ := List.getElem?_eq_some_iff.mp hb
  have hold : octet B k = b.toNat := by rw [octet, List.getD_eq_getElem?_getD, hb, Option.getD_some]
  have hne : (b ^^^ (1#8 <<< bit)).toNat ≠ octet B k := by
    rw [hold, Ne, BitVec.toNat_inj]
    exact xor_bit_ne hbit b
  have hl' : (B.set k (b ^^^ (1#8 <<< bit))).length = B.length := List.length_set
  have hinvalid (h60 : B.length ≤ 60) (h : verifyResponse B = .done 1 aux .zero) :=
    verifyResponse_of_invalid (foldSumBytes_verify_set_ne h60 hk hne (valid_of_verifyResponse h))
  refine ⟨fun n hn hl h => ?_, fun hl h5 hnibble h => ?_⟩
  · obtain ⟨aux', hr⟩ := hinvalid (by omega) (response_unique (exec_csVerifyN_of hB hn hl) h)
    exact ⟨aux', hr ▸ exec_csVerifyN_of hB' hn (by omega)⟩
  · obtain ⟨aux', hr⟩ := hinvalid (by omega) (response_unique (exec_csVerify_of hB hl h5) h)
    have h0 : octet (B.set k (b ^^^ (1#8 <<< bit))) 0 % 16 = octet B 0 % 16 := by
      rcases eq_or_ne k 0 with rfl | hk0
      · rw [octet_set_self hk, hold, xor_bit_mod_16 (by omega) hbit]
      · rw [octet_set_ne B hk0]
    exact ⟨aux', hr ▸ exec_csVerify_of hB' (by omega) (by omega)⟩

end Sys2Proof.Machine

/-! # The Protocol Classifier: the table and the two operations that report it (R150 to R153) -/

namespace Sys2Proof.Machine

/-! ## The table (R150, R151) -/

/-- The rows of the table: the four named numbers and the row of every other number. -/
theorem classify_cases (n : Byte) :
    n = 1 ∨ n = 2 ∨ n = 6 ∨ n = 17 ∨ (n ≠ 1 ∧ n ≠ 2 ∧ n ≠ 6 ∧ n ≠ 17) := by
  tauto

theorem classify_unknown {n : Byte} (h : n ≠ 1 ∧ n ≠ 2 ∧ n ≠ 6 ∧ n ≠ 17) :
    classify n = .unknown n := by
  obtain ⟨h1, h2, h6, h17⟩ := h
  rw [classify, if_neg h1, if_neg h2, if_neg h6, if_neg h17]

theorem protocolKind_unknown {n : Byte} (h : n ≠ 1 ∧ n ≠ 2 ∧ n ≠ 6 ∧ n ≠ 17) :
    protocolKind n.toNat = 0 := by
  simp only [← BitVec.toNat_ne_iff_ne] at h
  obtain ⟨h1 : n.toNat ≠ 1, h2 : n.toNat ≠ 2, h6 : n.toNat ≠ 6, h17 : n.toNat ≠ 17⟩ := h
  rw [protocolKind, if_neg h1, if_neg h2, if_neg h6, if_neg h17]

/-- The number is recovered from the variant. -/
@[simp] theorem classify_number (n : Byte) : (classify n).number = n := by
  obtain rfl | rfl | rfl | rfl | hother := classify_cases n
  · rfl
  · rfl
  · rfl
  · rfl
  · rw [classify_unknown hother, Protocol.number]

theorem classify_injective : Function.Injective classify :=
  Function.LeftInverse.injective classify_number

theorem classify_kind_toNat (n : Byte) : (classify n).kind.toNat = protocolKind n.toNat := by
  obtain rfl | rfl | rfl | rfl | hother := classify_cases n
  · rfl
  · rfl
  · rfl
  · rfl
  · rw [classify_unknown hother, protocolKind_unknown hother]
    rfl

/-- The pack of R151 as a number. -/
theorem Protocol.pack_classify (n : Byte) :
    (classify n).pack = BitVec.ofNat 32 (protocolKind n.toNat * 256 + n.toNat) := by
  have hpack : (classify n).pack.toNat = protocolKind n.toNat * 256 + n.toNat := by
    rw [pack, toNat_append_add, toNat_append_add, classify_number, classify_kind_toNat,
      BitVec.toNat_zero]
    omega
  rw [← hpack, BitVec.ofNat_toNat, BitVec.setWidth_eq]

/-- Settles O47: the rows of the table, and the number as the left inverse of `classify`. -/
theorem protocolTableIsTotalAndInjective : Obligations.ProtocolTableIsTotalAndInjective := by
  refine ⟨rfl, rfl, rfl, rfl, fun n => ⟨fun h1 h2 h6 h17 => ?_, classify_number n, fun m h => ?_⟩⟩
  · exact classify_unknown ⟨h1, h2, h6, h17⟩
  · exact classify_injective h

/-! ## The two operations (R152, R153) -/

theorem pcMap_eq (imm : Byte) (f : Frame) :
    pcMap imm f = respond (BitVec.ofNat 32 (protocolKind imm.toNat * 256 + imm.toNat)) 0 := by
  rw [pcMap, Protocol.pack_classify]

theorem pcHdr_short {f : Frame} (h : f.vlen < 20) : pcHdr f = raise .frameTruncated :=
  withView_short h

theorem pcHdr_of {f : Frame} {b9 : Byte} (h : 20 ≤ f.vlen) (h9 : f.viewByte 9 = .ok b9) :
    pcHdr f = respond (BitVec.ofNat 32 (protocolKind b9.toNat * 256 + b9.toNat)) 0 := by
  rw [pcHdr, withView_long h, Frame.protocolNumber, h9, except_ok_bind, Protocol.pack_classify]

/-- Settles O45: the word joins `0x30` to the immediate, and the value is the pack of its variant. -/
theorem pcMapResult : Obligations.PcMapResult := by
  refine ⟨fun imm => ?_, fun imm s => ?_⟩
  · exact ofNat_add_eq_append 0x30 imm ▸ decode_pcMap imm
  · exact exec_of_ok (pcMap_eq imm s.frame)

/-- Settles O46: the view check, then the pack of the variant of octet 9. -/
theorem pcHdrResult : Obligations.PcHdrResult := by
  refine ⟨by decide, fun s => ⟨fun h => ?_, fun b9 h h9 => ?_⟩⟩
  · exact exec_of_ok (pcHdr_short h)
  · exact exec_of_ok (pcHdr_of h h9)

end Sys2Proof.Machine

/-! # The composite decode: its words, its result, and the accessors (R161 to R164) -/

namespace Sys2Proof.Machine

/-! ## The fields back out of the packed words (R162) -/

theorem extract_eq_of_toNat {w : Word} {start len : Nat} {v : BitVec len}
    (h : w.toNat / 2 ^ start % 2 ^ len = v.toNat) : w.extractLsb' start len = v :=
  BitVec.eq_of_toNat_eq (by rw [toNat_extract, h])

section
variable (r : HeaderSummary)

theorem HeaderSummary.pack_s0_toNat : r.pack.s0.toNat =
    (((r.version.toNat * 2 ^ 4 + r.headerLength.toNat) * 2 ^ 6 + r.dscp.toNat) * 2 ^ 2 +
      r.ecn.toNat) * 2 ^ 16 + r.totalLength.toNat := by
  simp only [pack, toNat_append_add]

theorem HeaderSummary.pack_s1_toNat : r.pack.s1.toNat =
    (((r.identification.toNat * 2 ^ 1 + r.reserved.toNat) * 2 ^ 1 + r.dontFragment.toNat) * 2 ^ 1 +
      r.moreFragments.toNat) * 2 ^ 13 + r.fragmentOffset.toNat := by
  simp only [pack, toNat_append_add]

theorem HeaderSummary.pack_s2_toNat : r.pack.s2.toNat =
    (r.ttl.toNat * 2 ^ 8 + r.protocolNumber.toNat) * 2 ^ 16 + r.headerChecksum.toNat := by
  simp only [pack, toNat_append_add]

theorem HeaderSummary.pack_s5_toNat : r.pack.s5.toNat =
    r.options.offset.toNat * 2 ^ 8 + r.options.length.toNat := by
  simp only [pack, toNat_append_add, BitVec.toNat_ofNat, Nat.zero_mod, Nat.zero_mul, Nat.zero_add]

theorem HeaderSummary.pack_s0_fields :
    r.pack.s0.extractLsb' 28 4 = r.version ∧ r.pack.s0.extractLsb' 24 4 = r.headerLength ∧
      r.pack.s0.extractLsb' 18 6 = r.dscp ∧ r.pack.s0.extractLsb' 16 2 = r.ecn ∧
      r.pack.s0.extractLsb' 0 16 = r.totalLength := by
  have := r.version.isLt
  have := r.headerLength.isLt
  have := r.dscp.isLt
  have := r.ecn.isLt
  have := r.totalLength.isLt
  refine ⟨?_, ?_, ?_, ?_, ?_⟩ <;> (apply extract_eq_of_toNat; rw [pack_s0_toNat]; omega)

theorem HeaderSummary.pack_s1_fields :
    r.pack.s1.extractLsb' 16 16 = r.identification ∧
      r.pack.s1.extractLsb' 14 1 = r.dontFragment ∧
      r.pack.s1.extractLsb' 13 1 = r.moreFragments ∧
      r.pack.s1.extractLsb' 0 13 = r.fragmentOffset := by
  have := r.identification.isLt
  have := r.reserved.isLt
  have := r.dontFragment.isLt
  have := r.moreFragments.isLt
  have := r.fragmentOffset.isLt
  refine ⟨?_, ?_, ?_, ?_⟩ <;> (apply extract_eq_of_toNat; rw [pack_s1_toNat]; omega)

theorem HeaderSummary.pack_s2_fields :
    r.pack.s2.extractLsb' 24 8 = r.ttl ∧ r.pack.s2.extractLsb' 16 8 = r.protocolNumber ∧
      r.pack.s2.extractLsb' 0 16 = r.headerChecksum := by
  have := r.ttl.isLt
  have := r.protocolNumber.isLt
  have := r.headerChecksum.isLt
  refine ⟨?_, ?_, ?_⟩ <;> (apply extract_eq_of_toNat; rw [pack_s2_toNat]; omega)

theorem HeaderSummary.pack_s5_fields :
    r.pack.s5.extractLsb' 8 8 = r.options.offset ∧
      r.pack.s5.extractLsb' 0 8 = r.options.length := by
  have := r.options.offset.isLt
  have := r.options.length.isLt
  refine ⟨?_, ?_⟩ <;> (apply extract_eq_of_toNat; rw [pack_s5_toNat]; omega)

end

/-! ## The summary words as numbers (R162) -/

theorem reservedBit_toNat (b6 : Byte) : (reservedBit b6).toNat = b6.toNat / 128 := by
  have := b6.isLt
  rw [reservedBit, toNat_extract]
  omega

theorem eq_ofNat_of_toNat {w : Word} {n : Nat} (h : w.toNat = n) : w = BitVec.ofNat 32 n := by
  rw [← h, BitVec.ofNat_toNat, BitVec.setWidth_eq]

/-- Four octets joined are their big-endian number (R41). -/
theorem append4_getD (B : List Byte) (k : Nat) :
    B.getD k 0 ++ B.getD (k + 1) 0 ++ B.getD (k + 2) 0 ++ B.getD (k + 3) 0 =
      BitVec.ofNat 32 (octet4 B k) := by
  apply eq_ofNat_of_toNat
  rw [toNat_append4]
  simp only [octet4, octet2, octet, Nat.add_assoc, Nat.reduceAdd]
  omega

/-- Each word is the sum of its fields, each at its own weight. -/
theorem headerSummaryOf_pack (B : List Byte) : (headerSummaryOf B).pack =
    { s0 := BitVec.ofNat 32 (octet B 0 / 16 * 2 ^ 28 + octet B 0 % 16 * 2 ^ 24 +
        octet B 1 / 4 * 2 ^ 18 + octet B 1 % 4 * 2 ^ 16 + octet2 B 2)
      s1 := BitVec.ofNat 32 (octet2 B 4 * 2 ^ 16 + octet B 6 / 128 * 2 ^ 15 +
        octet B 6 / 64 % 2 * 2 ^ 14 + octet B 6 / 32 % 2 * 2 ^ 13 +
        (octet B 6 % 32 * 256 + octet B 7))
      s2 := BitVec.ofNat 32 (octet B 8 * 2 ^ 24 + octet B 9 * 2 ^ 16 + octet2 B 10)
      s3 := BitVec.ofNat 32 (octet4 B 12)
      s4 := BitVec.ofNat 32 (octet4 B 16)
      s5 := BitVec.ofNat 32 (20 * 256 + (octet B 0 % 16 - 5) * 4) } := by
  rw [SummaryWords.mk.injEq]
  refine ⟨eq_ofNat_of_toNat ?_, eq_ofNat_of_toNat ?_, eq_ofNat_of_toNat ?_, append4_getD B 12,
    append4_getD B 16, eq_ofNat_of_toNat ?_⟩
  · rw [HeaderSummary.pack_s0_toNat]
    simp only [headerSummaryOf, versionBits_toNat, ihlBits_toNat, dscpBits_toNat, ecnBits_toNat,
      toNat_append_getD, octet]
    omega
  · rw [HeaderSummary.pack_s1_toNat]
    simp only [headerSummaryOf, reservedBit_toNat, dfBit_toNat, mfBit_toNat, fragoffBits_toNat,
      toNat_append_getD, octet]
    omega
  · rw [HeaderSummary.pack_s2_toNat]
    simp only [headerSummaryOf, toNat_append_getD, octet]
    omega
  · rw [HeaderSummary.pack_s5_toNat, headerSummaryOf, OptionsRegion.ofIhl_length_toNat]
    rfl

/-- The fields of words 0 to 2 fill their octets, so these words are the header's own. -/
theorem headerSummaryOf_pack_octet4 (B : List Byte) : (headerSummaryOf B).pack =
    { s0 := BitVec.ofNat 32 (octet4 B 0), s1 := BitVec.ofNat 32 (octet4 B 4)
      s2 := BitVec.ofNat 32 (octet4 B 8), s3 := BitVec.ofNat 32 (octet4 B 12)
      s4 := BitVec.ofNat 32 (octet4 B 16)
      s5 := BitVec.ofNat 32 (20 * 256 + (octet B 0 % 16 - 5) * 4) } := by
  have := octet_lt B 6
  rw [headerSummaryOf_pack, SummaryWords.mk.injEq]
  refine ⟨congrArg _ ?_, congrArg _ ?_, congrArg _ ?_, rfl, rfl, rfl⟩
  all_goals
    simp only [octet4, octet2, Nat.reduceAdd]
    omega

/-! ## The response on a header whose octets are known -/

/-- `B` is the view's header: as long as its nibble declares, which is valid (R94). -/
structure Frame.HasHeader (f : Frame) (B : List Byte) : Prop where
  view : f.HasView B
  length : B.length = octet B 0 % 16 * 4
  valid : 5 ≤ octet B 0 % 16

/-- The flags of a header (R163). -/
def summaryFlags (B : List Byte) : Word :=
  packFlags (cksumValid (foldSumBytes .verify B)) (verOk (versionBits (B.getD 0 0)))
    (rsvOk (reservedBit (B.getD 6 0))) (lenOk (ihlBits (B.getD 0 0)) (B.getD 2 0 ++ B.getD 3 0))

/-- The result of `DEC.SUMMARY` on a header (R161, lines 10 to 16). -/
def summaryResponse (B : List Byte) : Response :=
  .done (summaryFlags B) (classify (B.getD 9 0)).pack (headerSummaryOf B).pack

theorem packFlags_eq_ofNat : ∀ cksum ver rsv len : Bool, packFlags cksum ver rsv len =
    BitVec.ofNat 32 ((if cksum then 1 else 0) + (if ver then 2 else 0) + (if rsv then 4 else 0) +
      (if len then 8 else 0)) := by
  decide

theorem packFlags_cksum : ∀ cksum ver rsv len : Bool,
    (packFlags cksum ver rsv len).extractLsb' 0 1 = BitVec.ofBool cksum := by
  decide

theorem cksumValid_iff {folded : Half} : cksumValid folded = true ↔ folded = 0xFFFF := beq_iff_eq

theorem verOk_versionBits {b0 : Byte} : verOk (versionBits b0) = true ↔ b0.toNat / 16 = 4 := by
  rw [verOk, beq_iff_eq, ← BitVec.toNat_inj, versionBits_toNat]
  rfl

theorem rsvOk_reservedBit {b6 : Byte} : rsvOk (reservedBit b6) = true ↔ b6.toNat / 128 = 0 := by
  rw [rsvOk, beq_iff_eq, ← BitVec.toNat_inj, reservedBit_toNat]
  rfl

theorem lenOk_iff {h : BitVec 4} {totalLength : Half} :
    lenOk h totalLength = true ↔ headerBytes h ≤ totalLength.toNat := decide_eq_true_iff

theorem summaryFlags_eq_ofNat (B : List Byte) : summaryFlags B = BitVec.ofNat 32
    ((if foldSumBytes .verify B = 0xFFFF then 1 else 0) + (if octet B 0 / 16 = 4 then 2 else 0) +
      (if octet B 6 / 128 = 0 then 4 else 0) +
      (if octet B 0 % 16 * 4 ≤ octet2 B 2 then 8 else 0)) := by
  simp only [summaryFlags, packFlags_eq_ofNat, cksumValid_iff, verOk_versionBits, rsvOk_reservedBit,
    lenOk_iff, headerBytes_ihlBits, toNat_append_getD]
  rfl

section
variable {f : Frame} {B : List Byte}

theorem Frame.HasHeader.twenty_le_length (h : f.HasHeader B) : 20 ≤ B.length := by
  have := h.length
  have := h.valid
  omega

theorem Frame.HasHeader.twenty_le_vlen (h : f.HasHeader B) : 20 ≤ f.vlen :=
  h.twenty_le_length.trans h.view.le_vlen

/-- Every octet that the fixed header has reads. -/
theorem Frame.HasHeader.byte (h : f.HasHeader B) {k : Nat} (hk : k < 20) :
    f.viewByte k = .ok (B.getD k 0) := h.view.byte (hk.trans_le h.twenty_le_length)

theorem Frame.HasHeader.headerBytes_le (h : f.HasHeader B) : octet B 0 % 16 * 4 ≤ f.vlen :=
  h.length ▸ h.view.le_vlen

/-- On IPv4 the total-length check is what is left once the header is valid and in the view. -/
theorem decSummary_of (hid : f.linkId = .ok 0x0800) (h : f.HasHeader B)
    (htl : octet2 B 2 ≤ f.vlen) : decSummary f = .ok (summaryResponse B) := by
  rw [decSummary_header (Frame.le_flen_of_linkId hid) hid h.view h.valid h.length,
    if_neg (by rw [toNat_append_getD]; omega),
    summaryResult_of h.view h.twenty_le_length ((headerBytes_ihlBits _).trans h.length.symm)]
  rfl

/-- `DEC.SUMMARY` answers a result exactly on IPv4, a header that is valid and in the view, and a
total_length within the view. -/
theorem decSummary_eq_done {val aux : Word} {sum : SummaryWords} :
    decSummary f = .ok (.done val aux sum) ↔ f.linkId = .ok 0x0800 ∧
      ∃ B, f.HasHeader B ∧ octet2 B 2 ≤ f.vlen ∧ .done val aux sum = summaryResponse B := by
  constructor
  · intro h
    obtain ⟨-, hid, B, hB, h5, hl, htl, rfl, rfl, rfl⟩ := decSummary_done h
    exact ⟨hid, B, ⟨hB, hl, h5⟩, toNat_append_getD B 2 ▸ htl, rfl⟩
  · rintro ⟨hid, B, h, htl, hr⟩
    rw [decSummary_of hid h htl, hr]

/-! ## The single operations on the same header (R164) -/

/-- On a loaded frame the flags read, so the identifier alone makes the variant IPv4. -/
theorem envClass_eq_ipv4 (hf : f.Loaded) :
    envClass f = .ok (.done 0x10800 0 .zero) ↔ f.linkId = .ok 0x0800 := by
  constructor
  · intro h
    rcases withEnvelope_eq_ok.mp h with ⟨-, e⟩ | ⟨-, h⟩
    · cases e
    obtain ⟨-, -, h⟩ := except_bind_ok h
    obtain ⟨id, hid, h⟩ := except_bind_ok h
    obtain ⟨hpack, -⟩ := Response.done.inj (Except.ok.inj h)
    have hval := congrArg BitVec.toNat (EnvVariant.pack_ofId id ▸ hpack)
    have hlt := id.isLt
    rw [hid]
    refine congrArg _ (BitVec.eq_of_toNat_eq ?_)
    simp only [BitVec.ofNat_eq_ofNat, BitVec.toNat_ofNat] at hval ⊢
    split at hval <;> omega
  · intro hid
    have h4 := Frame.le_flen_of_linkId hid
    obtain ⟨flags, hflags⟩ := hf.memRead16 (a := 0) (by omega) (by omega)
    rw [envClass_of_flags h4 hflags, hid, except_ok_bind]
    rfl

/-- On a loaded frame `HV.OPTIONS` answers a region exactly when the view holds a valid header. -/
theorem hvOptions_eq_done (hf : f.Loaded) :
    (∃ off len, hvOptions f = .ok (.done off len .zero)) ↔ ∃ B, f.HasHeader B := by
  constructor
  · rintro ⟨off, len, h⟩
    obtain ⟨-, b0, h0, h5, hl, -⟩ := withHeader_done h
    obtain ⟨B, hBl, hB⟩ := hf.hasView hl (by omega)
    obtain rfl : b0 = B.getD 0 0 := Except.ok.inj (h0.symm.trans (hB.byte (by omega)))
    exact ⟨B, hB, hBl, h5⟩
  · rintro ⟨B, h⟩
    exact ⟨_, _, hvOptions_of (h.byte (by omega)) h.valid h.headerBytes_le⟩

end

section
variable {i : Instr} {n : Nat} {s : State}

/-- A scalar accessor answers its field, zero-extended (R49, R91). -/
theorem exec_scalar_field {field : Frame → Except Fault (BitVec n)} {v : BitVec n}
    (hop : opOf i = scalar field) (h : 20 ≤ s.frame.vlen) (hv : field s.frame = .ok v) :
    exec i s = .next (s.answer (.done (v.setWidth 32) 0 .zero)) :=
  exec_of_ok (by rw [hop, scalar_of h hv, respond])

theorem exec_scalar_word {field : Frame → Except Fault Word} {v : Word}
    (hop : opOf i = scalar field) (h : 20 ≤ s.frame.vlen) (hv : field s.frame = .ok v) :
    exec i s = .next (s.answer (.done v 0 .zero)) :=
  BitVec.setWidth_eq v ▸ exec_scalar_field hop h hv

end

section
variable {s : State} {B : List Byte}

theorem exec_decSummary_of (hid : s.frame.linkId = .ok 0x0800) (hB : s.frame.HasHeader B)
    (htl : octet2 B 2 ≤ s.frame.vlen) :
    exec .decSummary s = .next (s.answer (summaryResponse B)) :=
  exec_of_ok (decSummary_of hid hB htl)

theorem exec_decSummary_eq_done {val aux : Word} {sum : SummaryWords} :
    exec .decSummary s = .next (s.answer (.done val aux sum)) ↔ s.frame.linkId = .ok 0x0800 ∧
      ∃ B, s.frame.HasHeader B ∧ octet2 B 2 ≤ s.frame.vlen ∧
        .done val aux sum = summaryResponse B := by
  rw [exec_eq, execOn_answer]
  exact decSummary_eq_done

/-- The checks that follow the route to IPv4, with what they answer. -/
theorem exec_decSummary_failed {kind : ErrorKind} (hid : s.frame.linkId = .ok 0x0800)
    (h : HeaderCheckEnds s.frame (.failed kind) ∨ TotalLengthCheckEnds s.frame (.failed kind)) :
    exec .decSummary s = .next (s.answer (.failed kind)) :=
  (exec_answer_noResult (Response.noResult_failed kind)).mpr (.inr (.inr ⟨hid, h⟩))

theorem exec_hvTotlen_of (h : s.frame.HasHeader B) :
    exec .hvTotlen s = .next (s.answer (.done (BitVec.ofNat 32 (octet2 B 2)) 0 .zero)) :=
  exec_scalar_of rfl h.twenty_le_vlen (Frame.be16_of (h.byte (by omega)) (h.byte (by omega)))
    (toNat_append_getD B 2)

theorem ofNat_octet2_toNat (B : List Byte) (k : Nat) :
    (BitVec.ofNat 32 (octet2 B k)).toNat = octet2 B k :=
  Nat.mod_eq_of_lt ((octet2_lt B k).trans (by decide))

/-- The three single operations pass the checks that `DEC.SUMMARY` makes. -/
theorem exec_decSummary_done_iff (hs : s.frame.Loaded) :
    (∃ val aux sum, exec .decSummary s = .next (s.answer (.done val aux sum))) ↔
      exec .envClass s = .next (s.answer (.done 0x10800 0 .zero)) ∧
      (∃ off len, exec .hvOptions s = .next (s.answer (.done off len .zero))) ∧
      ∃ tl : Word, exec .hvTotlen s = .next (s.answer (.done tl 0 .zero)) ∧
        tl.toNat ≤ s.frame.vlen := by
  constructor
  · rintro ⟨val, aux, sum, h⟩
    obtain ⟨hid, B, hB, htl, -⟩ := exec_decSummary_eq_done.mp h
    obtain ⟨off, len, hopt⟩ := (hvOptions_eq_done hs).mpr ⟨B, hB⟩
    exact ⟨exec_of_ok ((envClass_eq_ipv4 hs).mpr hid), ⟨off, len, exec_of_ok hopt⟩, _,
      exec_hvTotlen_of hB, (ofNat_octet2_toNat B 2).trans_le htl⟩
  · rintro ⟨henv, ⟨off, len, hopt⟩, tl, htotlen, htl⟩
    rw [exec_eq, execOn_answer] at henv hopt
    obtain ⟨B, hB⟩ := (hvOptions_eq_done hs).mp ⟨off, len, hopt⟩
    obtain ⟨rfl, -⟩ := Response.done.inj (response_unique htotlen (exec_hvTotlen_of hB))
    rw [ofNat_octet2_toNat] at htl
    exact ⟨_, _, _, exec_decSummary_of ((envClass_eq_ipv4 hs).mp henv) hB htl⟩

end

/-! ## The obligations of the composite decode -/

/-- Settles O48: the route and the checks by what ends the operation without a result, and past them
the result of the header, as numbers. -/
theorem decSummaryResult : Obligations.DecSummaryResult := by
  refine ⟨by decide, fun s => ⟨?_, fun b2 b3 h4 h2 h3 => ?_⟩⟩
  · exact fun h4 => exec_of_ok (decSummary_short h4)
  have hid : s.frame.linkId = .ok (b2 ++ b3) := Frame.memRead16_of h2 h3
  have hnum : (b2 ++ b3).toNat = b2.toNat * 256 + b3.toNat := toNat_append_add b2 b3
  refine ⟨fun hne => ?_, fun hip => ?_⟩
  · rw [ofNat_add_eq_append]
    exact exec_of_ok (decSummary_other h4 hid fun h => hne (hnum.symm.trans (congrArg _ h)))
  rw [show b2 ++ b3 = (0x0800 : Half) from BitVec.eq_of_toNat_eq (hnum.trans hip)] at hid
  refine ⟨fun h => ?_, fun b0 h h0 => ⟨fun h5 => ?_, fun h5 hl => ?_⟩, fun B hview hl h5 => ?_⟩
  · exact exec_decSummary_failed hid (.inl (.inl (.inl ⟨h, rfl⟩)))
  · exact exec_decSummary_failed hid (.inl (.inl (.inr ⟨h, b0, h0, h5, rfl⟩)))
  · exact exec_decSummary_failed hid (.inl (.inr ⟨h, b0, h0, h5, hl, rfl⟩))
  have hB : s.frame.HasHeader B := ⟨hview, hl, h5⟩
  refine ⟨fun htl => ?_, fun htl => ?_⟩
  · exact exec_decSummary_failed hid (.inr ⟨_, _, _, hB.byte (by omega), hB.byte (by omega),
      hB.byte (by omega), h5, hB.headerBytes_le, htl, rfl⟩)
  · rw [exec_decSummary_of hid hB htl, summaryResponse, summaryFlags_eq_ofNat,
      Protocol.pack_classify, headerSummaryOf_pack]
    rfl

/-- Settles O49: the packed words are the big-endian numbers of the octets that `BE32` joins. -/
theorem summaryWordsAreTheHeaderWords : Obligations.SummaryWordsAreTheHeaderWords := by
  intro s val aux sum h
  obtain ⟨-, B, hB, -, hr⟩ := exec_decSummary_eq_done.mp h
  obtain ⟨-, -, rfl⟩ := Response.done.inj hr
  have hword {k : Nat} (hk : k + 3 < 20) :
      s.frame.be32 k = .ok (BitVec.ofNat 32 (octet4 B k)) := by
    rw [hB.view.be32 (hk.trans_le hB.twenty_le_length), append4_getD]
  rw [headerSummaryOf_pack_octet4]
  refine ⟨hword (by omega), hword (by omega), hword (by omega), hword (by omega), hword (by omega),
    ?_⟩
  rw [BitVec.toNat_ofNat]
  omega

/-- Settles O50: each slice of a packed word is a field of the header's record, which its accessor
reads from the same octets. -/
theorem summaryAgreesWithTheAccessors : Obligations.SummaryAgreesWithTheAccessors := by
  refine fun s hs => ⟨exec_decSummary_done_iff hs, fun val aux sum h => ?_⟩
  intro reads
  obtain ⟨-, B, hB, -, hr⟩ := exec_decSummary_eq_done.mp h
  obtain ⟨rfl, rfl, rfl⟩ := Response.done.inj hr
  obtain ⟨hversion, hihl, hdscp, hecn, htotlen⟩ := (headerSummaryOf B).pack_s0_fields
  obtain ⟨hident, hdf, hmf, hfragoff⟩ := (headerSummaryOf B).pack_s1_fields
  obtain ⟨httl, hprotonum, hcsumfld⟩ := (headerSummaryOf B).pack_s2_fields
  obtain ⟨hoffset, hlength⟩ := (headerSummaryOf B).pack_s5_fields
  rw [hversion, hihl, hdscp, hecn, htotlen, hident, hdf, hmf, hfragoff, httl, hprotonum, hcsumfld,
    hoffset, hlength, summaryFlags, packFlags_cksum]
  have h20 := hB.twenty_le_vlen
  have hlen := hB.twenty_le_length
  have hbyte (k : Nat) (hk : k < 20) : s.frame.viewByte k = .ok (B.getD k 0) := hB.byte hk
  have hhalf (k : Nat) (hk : k + 1 < 20) := hB.view.be16 (hk.trans_le hlen)
  have hword (k : Nat) (hk : k + 3 < 20) := hB.view.be32 (hk.trans_le hlen)
  refine ⟨?_, ?_, ?_, ?_, ?_, ?_, ?_, ?_, ?_, ?_, ?_, ?_, ?_, ?_, ?_, ?_, ?_⟩
  · exact exec_scalar_field rfl h20 (Frame.octetField_of versionBits (hbyte 0 (by omega)))
  · exact exec_of_ok (withIhl_valid h20 (hbyte 0 (by omega)) hB.valid)
  · exact exec_scalar_field rfl h20 (Frame.octetField_of dscpBits (hbyte 1 (by omega)))
  · exact exec_scalar_field rfl h20 (Frame.octetField_of ecnBits (hbyte 1 (by omega)))
  · exact exec_scalar_field rfl h20 (hhalf 2 (by omega))
  · exact exec_scalar_field rfl h20 (hhalf 4 (by omega))
  · exact exec_scalar_field rfl h20 (Frame.octetField_of dfBit (hbyte 6 (by omega)))
  · exact exec_scalar_field rfl h20 (Frame.octetField_of mfBit (hbyte 6 (by omega)))
  · exact exec_scalar_field rfl h20
      (Frame.fragmentOffset_of (hbyte 6 (by omega)) (hbyte 7 (by omega)))
  · exact exec_scalar_field rfl h20 (hbyte 8 (by omega))
  · exact exec_scalar_field rfl h20 (hbyte 9 (by omega))
  · exact exec_scalar_field rfl h20 (hhalf 10 (by omega))
  · exact exec_scalar_word rfl h20 (hword 12 (by omega))
  · exact exec_scalar_word rfl h20 (hword 16 (by omega))
  · exact exec_of_ok (withHeader_valid (hbyte 0 (by omega)) hB.valid hB.headerBytes_le)
  · exact ⟨_, exec_of_ok ((csVerify_of hB.view hB.length hB.valid).trans (verifyResult_of hB.view))⟩
  · rw [Protocol.pack_classify]
    exact exec_of_ok (pcHdr_of h20 (hbyte 9 (by omega)))

end Sys2Proof.Machine

/-! # Who raises `HeaderLengthInvalid`, and the record of a response (R170 to R172) -/

namespace Sys2Proof.Machine

section
variable {f : Frame}

/-- Of the checks on the header length, the nibble check alone raises the status (R172). -/
theorem ihlCheckEnds_headerLengthInvalid : IhlCheckEnds f (.failed .headerLengthInvalid) ↔
    20 ≤ f.vlen ∧ ∃ b0, f.viewByte 0 = .ok b0 ∧ b0.toNat % 16 < 5 := by
  simp [IhlCheckEnds]

/-- The check that the header fits raises another status. -/
theorem headerCheckEnds_headerLengthInvalid : HeaderCheckEnds f (.failed .headerLengthInvalid) ↔
    20 ≤ f.vlen ∧ ∃ b0, f.viewByte 0 = .ok b0 ∧ b0.toNat % 16 < 5 := by
  simp [HeaderCheckEnds, ihlCheckEnds_headerLengthInvalid]

theorem not_totalLengthCheckEnds_headerLengthInvalid :
    ¬ TotalLengthCheckEnds f (.failed .headerLengthInvalid) := by
  simp [TotalLengthCheckEnds]

end

/-- Settles O51: `HV.IHL` makes the nibble check, the header check of the other four has it too, and
nothing else that ends an operation gives `HeaderLengthInvalid`. -/
theorem headerLengthInvalidRaisers : Obligations.HeaderLengthInvalidRaisers := by
  intro i s
  rw [exec_answer_noResult (Response.noResult_failed _)]
  cases i with
  | hvIhl => simp [EndsWithoutResult, ihlCheckEnds_headerLengthInvalid]
  | hvOptions | csCompute | csVerify =>
    simp [EndsWithoutResult, headerCheckEnds_headerLengthInvalid]
  | decSummary =>
    simp [EndsWithoutResult, headerCheckEnds_headerLengthInvalid,
      not_totalLengthCheckEnds_headerLengthInvalid, Frame.linkId, and_left_comm, and_comm]
  | _ => simp [EndsWithoutResult]

theorem ErrorKind.code_le (kind : ErrorKind) : kind.code.toNat ≤ 3 := by
  cases kind <;> decide

theorem Response.rsp_status_le (r : Response) : r.rsp.status.toNat ≤ 4 := by
  cases r with
  | done val aux sum => exact Nat.zero_le 4
  | notIPv4 id => exact le_rfl
  | failed kind => exact kind.code_le.trans (by decide)

/-- Settles O54: the record's fields by the kind of response, and no code of R170 is above 4. -/
theorem statusCodesOfTheRecord : Obligations.StatusCodesOfTheRecord := by
  refine ⟨fun _ _ _ => rfl, rfl, rfl, rfl, fun id => ?_, Response.rsp_status_le⟩
  rw [Response.rsp, setWidth_eq_ofNat]

end Sys2Proof.Machine

/-! # Before the first `LOAD`, and what a run of host moves leaves (R190, R191, R194) -/

namespace Sys2Proof.Machine

/-- In a frame too short for its envelope, the first check of every operation but `PC.MAP` ends it (R45). -/
theorem endsWithoutResult_of_flen_lt {f : Frame} {i : Instr} (h4 : f.flen.toNat < 4)
    (hi : i.wf = true) (hmap : ∀ imm, i ≠ .pcMap imm) :
    EndsWithoutResult f (.failed .frameTruncated) i := by
  have h20 : f.vlen < 20 := by rw [Frame.vlen_eq]; omega
  cases i with
  | envClass => exact ⟨h4, rfl⟩
  | hvIhl => exact .inl ⟨h20, rfl⟩
  | hvOptions | csCompute | csVerify => exact .inl (.inl ⟨h20, rfl⟩)
  | csComputeN n | csVerifyN n =>
    exact .inr ⟨optionsLenLegal_eq_true.mp hi, Nat.lt_add_right n.toNat h20, rfl⟩
  | pcMap imm => exact absurd rfl (hmap imm)
  | decSummary => exact .inl ⟨h4, rfl⟩
  | _ => exact ⟨h20, rfl⟩

/-- From a loaded frame a run of moves that fit takes them all; `rs` are the responses to its `ISSUE`s,
the newest first. -/
theorem run_moves (moves : List HostMove) {s : State} (hs : s.frame.Loaded) (h : s.inbox = moves)
    (hfits : ∀ m ∈ moves, m.fits = true) :
    ∃ rs : List Response, rs.length = moves.countP (·.isIssue) ∧
      Host.Core.run Sys2Proof.core moves.length s =
        .next { frame := lastFrame s.frame moves, inbox := [], out := rs ++ s.out } := by
  induction moves generalizing s with
  | nil =>
    cases s
    cases h
    exact ⟨[], rfl, rfl⟩
  | cons m rest ih =>
    obtain ⟨hm, hrest⟩ := List.forall_mem_cons.mp hfits
    cases m with
    | load bytes =>
      have hlen : bytes.length < 2 ^ 32 := of_decide_eq_true hm
      obtain ⟨rs, hcount, hrun⟩ := ih (s := (s.withInbox rest).withFrame (.ofBytes bytes))
        (Frame.ofBytes_loaded hlen) rfl hrest
      exact ⟨rs, hcount, (run_of_next _ (step_load_fits h hlen)).trans hrun⟩
    | issue w =>
      obtain ⟨r, hr⟩ := wordOp_loaded hs w
      obtain ⟨rs, hcount, hrun⟩ := ih (s := (s.withInbox rest).answer r) hs rfl hrest
      refine ⟨rs ++ [r], ?_, (run_of_next _ (step_issue_of_ok h hr)).trans (hrun.trans ?_)⟩
      · simp [HostMove.isIssue, hcount]
      · simp [lastFrame]

/-- Settles O10: a frame of no bytes holds no envelope, and `PC.MAP` reads no byte of it. -/
theorem beforeFirstLoadEverythingIsTruncated : Obligations.BeforeFirstLoadEverythingIsTruncated := by
  intro s i hflen hi
  have h4 : s.frame.flen.toNat < 4 := by rw [hflen]; decide
  cases i with
  | pcMap imm => exact exec_of_ok (pcMap_eq imm s.frame)
  | _ =>
    exact (exec_answer_noResult (Response.noResult_failed _)).mpr
      (endsWithoutResult_of_flen_lt h4 hi nofun)

/-- Settles O60, by induction on the moves: each one leaves a loaded frame and the moves after it. -/
theorem runTakesEveryMove : Obligations.RunTakesEveryMove :=
  fun s hs hfits => run_moves s.inbox hs rfl hfits

/-- Settles O8: no move is at the head of the host port, so the step is the idle one. -/
theorem idleStepChangesNothing : Obligations.IdleStepChangesNothing := fun _ => step_idle

/-- Settles O9: no byte is listed after reset, so every offset is unspecified. -/
theorem resetStateIsEmpty : Obligations.ResetStateIsEmpty := by
  refine ⟨rfl, fun a => ?_, rfl, rfl, rfl⟩
  have hread : Memory.read State.reset.frame.fb a = none := Memory.read_nil a
  exact ⟨hread, Frame.readByte_of_read_none hread⟩

end Sys2Proof.Machine
